-- ==== Sys2Proof/Word.lean ====
section
/-! DEFINITION. The byte, the one data width of the machine (spec/00_scope.md R5, `XLEN` = 8), and register indices. -/

namespace Sys2Proof

/-- An 8-bit value: a register, `pc`, `fl`, a memory cell or an address (R5). Its arithmetic wraps modulo 256
(spec/10_state.md R22, spec/20_memory.md R45). -/
abbrev Byte := BitVec 8

/-- The index of one of the 8 general registers (R5, `NREG` = 8; spec/10_state.md R20). -/
abbrev RegIdx := Fin 8

end Sys2Proof
end

