-- ==== Sys2Proof/Config.lean ====
section
/-! DEFINITION. Parameters of the machine: the fixed ones (spec/00_scope.md R5, R8), and the shapes of the two sets the spec
leaves open, the opcode bytes (R6) and the flag values (R7). The default values of the two open sets stand in
Sys2Proof/Decode.lean (`defaultOpcodes`) and Sys2Proof/Machine/Flags.lean (`defaultFlags`). -/

namespace Sys2Proof

namespace Config

/-- `MEMSIZE`: the number of memory cells (R5). -/
def memSize : Nat := 256

/-- `SP_INDEX`: the register that is the stack pointer (R5, spec/10_state.md R23). -/
abbrev spIndex : RegIdx := 7

/-- `SP_RESET` (R5). -/
def spReset : Byte := 0xF4

/-- `PC_RESET` (R5). -/
def pcReset : Byte := 0x00

/-- `FL_RESET` (R5). -/
def flReset : Byte := 0x00

/-- `LOAD_BASE`: the address of the first loaded program byte (R5). -/
def loadBase : Nat := 0

/-- `MAX_PROGRAM`: the longest stream the load move accepts (R8, decision D10; DESIGN CHOICE of the spec, log 10). -/
def maxProgram : Nat := 256

end Config

/-- The 13 entries of the opcode map, in the order of spec/30_encoding.md R66. -/
inductive Opcode where
  | halt | loadImmediate | printReg | add | multiply | push | pop | call | ret | compare | jumpEqual | jump | jumpNotEqual
  deriving DecidableEq, Repr

/-- Every opcode once, in the order of R66. -/
def Opcode.all : List Opcode :=
  [.halt, .loadImmediate, .printReg, .add, .multiply, .push, .pop, .call, .ret, .compare, .jumpEqual, .jump,
    .jumpNotEqual]

/-- The thirteen parameters `OPC_*` of R6: the byte each instruction is encoded with. -/
structure OpcodeMap where
  halt : Byte
  loadImmediate : Byte
  printReg : Byte
  add : Byte
  multiply : Byte
  push : Byte
  pop : Byte
  call : Byte
  ret : Byte
  compare : Byte
  jumpEqual : Byte
  jump : Byte
  jumpNotEqual : Byte
  deriving DecidableEq, Repr

/-- The parameter `OPC_<op>`. -/
def OpcodeMap.byte (m : OpcodeMap) : Opcode → Byte
  | .halt => m.halt
  | .loadImmediate => m.loadImmediate
  | .printReg => m.printReg
  | .add => m.add
  | .multiply => m.multiply
  | .push => m.push
  | .pop => m.pop
  | .call => m.call
  | .ret => m.ret
  | .compare => m.compare
  | .jumpEqual => m.jumpEqual
  | .jump => m.jump
  | .jumpNotEqual => m.jumpNotEqual

/-- R6's one constraint: "the 13 values are pairwise distinct 8-bit values". -/
abbrev OpcodeMap.Distinct (m : OpcodeMap) : Prop := (Opcode.all.map m.byte).Nodup

/-- The three parameters `FL_LESS`, `FL_GREATER`, `FL_EQUAL` of R7. -/
structure FlagMap where
  less : Byte
  greater : Byte
  equal : Byte
  deriving DecidableEq, Repr

/-- R7's constraint: "each is one of 0x01, 0x02, 0x04 and they are pairwise distinct". -/
abbrev FlagMap.Valid (p : FlagMap) : Prop :=
  (∀ v ∈ [p.less, p.greater, p.equal], v ∈ ([0x01, 0x02, 0x04] : List Byte)) ∧ [p.less, p.greater, p.equal].Nodup

/-- The two open sets of parameters of one machine (R6, R7; R10: "configuration", not state). -/
structure Params where
  opcodes : OpcodeMap
  flags : FlagMap
  deriving DecidableEq, Repr

/-- Both sets meet their constraints. -/
abbrev Params.Legal (c : Params) : Prop := c.opcodes.Distinct ∧ c.flags.Valid

end Sys2Proof
end

