-- ==== Sys2Proof/Syntax.lean ====
section
/-! DEFINITION. The instruction set: one constructor per row of spec/opcode_table.json (spec/30_encoding.md R66). An operand is
the whole operand byte as it stands in memory (R61, R63): the check that a register-index byte is at most 7 belongs to the
execution of the instruction (R64, spec/40_execution_loop.md R82), so every byte is a legal field here and
Sys2Proof/WellFormed.lean says which ones name a register. An undefined opcode is no instruction (R68) and has no
constructor (log 19). -/

namespace Sys2Proof

/-- The 13 instructions. `a` and `b` are the bytes at `pc + 1` and `pc + 2`. -/
inductive Instr where
  /-- HALT (R90). -/
  | halt
  /-- LOAD_IMMEDIATE (R91): destination register byte, immediate byte. -/
  | loadImmediate (a imm : Byte)
  /-- PRINT_REG (R92): source register byte. -/
  | printReg (a : Byte)
  /-- ADD (R101): destination and first source, second source. -/
  | add (a b : Byte)
  /-- MULTIPLY (R102): destination and first source, second source. -/
  | multiply (a b : Byte)
  /-- PUSH (R110): source register byte. -/
  | push (a : Byte)
  /-- POP (R111): destination register byte. -/
  | pop (a : Byte)
  /-- CALL (R120): the register that holds the target. -/
  | call (a : Byte)
  /-- RETURN (R121). -/
  | ret
  /-- COMPARE (R130): left and right register bytes. -/
  | compare (a b : Byte)
  /-- JUMP_EQUAL (R131): the register that holds the target. -/
  | jumpEqual (a : Byte)
  /-- JUMP (R132): the register that holds the target. -/
  | jump (a : Byte)
  /-- JUMP_NOT_EQUAL (R133): the register that holds the target. -/
  | jumpNotEqual (a : Byte)
  deriving DecidableEq, Repr

/-- The row of the opcode map an instruction belongs to (R66). -/
def Instr.opcode : Instr → Opcode
  | .halt => .halt
  | .loadImmediate _ _ => .loadImmediate
  | .printReg _ => .printReg
  | .add _ _ => .add
  | .multiply _ _ => .multiply
  | .push _ => .push
  | .pop _ => .pop
  | .call _ => .call
  | .ret => .ret
  | .compare _ _ => .compare
  | .jumpEqual _ => .jumpEqual
  | .jump _ => .jump
  | .jumpNotEqual _ => .jumpNotEqual

/-- All operand bytes of an instruction, in address order (R60, R61). -/
def Instr.operands : Instr → List Byte
  | .halt => []
  | .loadImmediate a imm => [a, imm]
  | .printReg a => [a]
  | .add a b => [a, b]
  | .multiply a b => [a, b]
  | .push a => [a]
  | .pop a => [a]
  | .call a => [a]
  | .ret => []
  | .compare a b => [a, b]
  | .jumpEqual a => [a]
  | .jump a => [a]
  | .jumpNotEqual a => [a]

/-- The operand bytes that are register indices (R61, R64): all of them but LOAD_IMMEDIATE's second. -/
def Instr.registerOperands : Instr → List Byte
  | .halt => []
  | .loadImmediate a _ => [a]
  | .printReg a => [a]
  | .add a b => [a, b]
  | .multiply a b => [a, b]
  | .push a => [a]
  | .pop a => [a]
  | .call a => [a]
  | .ret => []
  | .compare a b => [a, b]
  | .jumpEqual a => [a]
  | .jump a => [a]
  | .jumpNotEqual a => [a]

end Sys2Proof
end

