-- ==== Sys2Proof/WellFormed.lean ====
section
/-! DEFINITION. Which instructions are well formed: every register-index operand byte names one of the 8 registers
(spec/30_encoding.md R64). An instruction that is not well formed still has a meaning: it takes InvalidRegisterIndex
(spec/60_exceptions.md R162). -/

namespace Sys2Proof

/-- Every register-index operand byte is 0..7 (R64); an immediate is never checked. -/
abbrev Instr.WellFormed (i : Instr) : Prop := ∀ k ∈ i.registerOperands, k.toNat ≤ 7

end Sys2Proof
end

