-- ==== Sys2Proof/Decode.lean ====
section
/-! DEFINITION. The opcode map's default values, the decoder (total on any three fetched bytes, rejecting an undefined opcode by
name) and the encoder, each for an arbitrary opcode map (spec/00_scope.md R6; spec/92_eei_decisions.md D1 asks for that), and
the fixed names of the host for the default map. -/

namespace Sys2Proof

/-- The default opcode bytes of spec/30_encoding.md R66 and spec/opcode_table.json.
PRESUMED (log 1): the spec marks the values "from general knowledge, not in source". Unsafe for claims about bytes. -/
def defaultOpcodes : OpcodeMap where
  halt := 0x01
  loadImmediate := 0x82
  printReg := 0x47
  add := 0xA0
  multiply := 0xA2
  push := 0x45
  pop := 0x46
  call := 0x50
  ret := 0x11
  compare := 0xA7
  jumpEqual := 0x55
  jump := 0x54
  jumpNotEqual := 0x56

/-- The operand-count column of R66. -/
def Opcode.operandCount : Opcode → Nat
  | .halt => 0
  | .loadImmediate => 2
  | .printReg => 1
  | .add => 2
  | .multiply => 2
  | .push => 1
  | .pop => 1
  | .call => 1
  | .ret => 0
  | .compare => 2
  | .jumpEqual => 1
  | .jump => 1
  | .jumpNotEqual => 1

/-- "The length is `1 + operand_count`" (R60). -/
def Opcode.length (op : Opcode) : Nat := 1 + op.operandCount

/-- The three bytes a step fetches: IR and the two candidate operand bytes (spec/10_state.md R32, spec/30_encoding.md R63). -/
structure Fetched where
  ir : Byte
  a : Byte
  b : Byte
  deriving DecidableEq, Repr

/-- The fetched bytes in address order (R60). -/
def Fetched.toList (w : Fetched) : List Byte := [w.ir, w.a, w.b]

/-- The first three bytes of a byte string; a byte the string does not have reads as 0x00, as memory never loaded does
(spec/10_state.md R34). -/
def Fetched.ofList (bs : List Byte) : Fetched := ⟨bs.getD 0 0, bs.getD 1 0, bs.getD 2 0⟩

/-- What a fetched IR is: one of the 13 instructions with its operand bytes, or an undefined opcode (R67, R68). -/
inductive Decoded where
  | instr (i : Instr)
  | undefinedOpcode (ir : Byte)
  deriving DecidableEq, Repr

/-- "match IR exactly against the fixed opcode table" (R67): the row whose whole byte equals `ir`. -/
def OpcodeMap.lookup (m : OpcodeMap) (ir : Byte) : Option Opcode := Opcode.all.find? fun op => m.byte op == ir

/-- The instruction of a matched row with the operand bytes it uses; an unused byte is ignored (R61, R63). -/
def assemble (op : Opcode) (a b : Byte) : Instr :=
  match op with
  | .halt => .halt
  | .loadImmediate => .loadImmediate a b
  | .printReg => .printReg a
  | .add => .add a b
  | .multiply => .multiply a b
  | .push => .push a
  | .pop => .pop a
  | .call => .call a
  | .ret => .ret
  | .compare => .compare a b
  | .jumpEqual => .jumpEqual a
  | .jump => .jump a
  | .jumpNotEqual => .jumpNotEqual a

/-- The decoder for an opcode map (R67, spec/40_execution_loop.md R82). -/
def decodeWith (m : OpcodeMap) (w : Fetched) : Decoded :=
  match m.lookup w.ir with
  | some op => .instr (assemble op w.a w.b)
  | none => .undefinedOpcode w.ir

/-- The decoder of the default opcode map. -/
def decode (w : Fetched) : Decoded := decodeWith defaultOpcodes w

/-- The bytes of an instruction, the opcode first and each operand byte after it (R60, R61, and R70's table). -/
def encodeWith (m : OpcodeMap) (i : Instr) : List Byte :=
  match i with
  | .halt => [m.halt]
  | .loadImmediate a imm => [m.loadImmediate, a, imm]
  | .printReg a => [m.printReg, a]
  | .add a b => [m.add, a, b]
  | .multiply a b => [m.multiply, a, b]
  | .push a => [m.push, a]
  | .pop a => [m.pop, a]
  | .call a => [m.call, a]
  | .ret => [m.ret]
  | .compare a b => [m.compare, a, b]
  | .jumpEqual a => [m.jumpEqual, a]
  | .jump a => [m.jump, a]
  | .jumpNotEqual a => [m.jumpNotEqual, a]

/-- The encoder of the default opcode map. -/
def encode (i : Instr) : List Byte := encodeWith defaultOpcodes i

/-- The bytes of a table word of `nbits` bits as the hardware stores them: byte 0, the opcode, first
(spec/20_memory.md R48); the bits above `nbits`, up to the longest instruction, are 0. -/
def wordBytes (nbits w : Nat) : Fetched where
  ir := BitVec.ofNat 8 (w % 2 ^ nbits)
  a := BitVec.ofNat 8 (w % 2 ^ nbits / 256)
  b := BitVec.ofNat 8 (w % 2 ^ nbits / 65536)

/-- The host's name: the instruction the decoder reads from the table word `w`; none for an undefined opcode. -/
def decodeTableWord (nbits w : Nat) : Option Instr :=
  match decode (wordBytes nbits w) with
  | .instr i => some i
  | .undefinedOpcode _ => none

end Sys2Proof
end

