-- ==== Sys2Proof/Machine/State.lean ====
section
/-! DEFINITION. The whole state of the machine as plain data (spec/10_state.md), the reasons a step can stop, and the state
after reset (R33; spec/70_reset_and_hazards.md R180). -/

namespace Sys2Proof.Machine

/-- The run state (R28). The source's running flag is `mode = running`. The four names are the spec's decision D6 (log 6). -/
inductive Mode where
  | notStarted
  | running
  | halted
  | faulted
  deriving DecidableEq, Repr

/-- The values of `fault_cause` (R29): 0 no fault, 1 UnsupportedOperation, 2 InvalidRegisterIndex. -/
inductive FaultCause where
  | none
  | unsupportedOperation
  | invalidRegisterIndex
  deriving DecidableEq, Repr

/-- The numeric cause code (R29, spec/60_exceptions.md R160; the codes are the spec's decision D7, log 7). -/
def FaultCause.code : FaultCause → Nat
  | .none => 0
  | .unsupportedOperation => 1
  | .invalidRegisterIndex => 2

/-- Why the engine takes no step: `mode` is not RUNNING (spec/40_execution_loop.md R80: "in NOT_STARTED, HALTED and FAULTED it
does nothing"; spec/93_implementation_defined.md U6, U7: `stuck`). Only `step` raises these, never an instruction. All three
are safe: the model stops exactly where the machine takes no step (log 17). An exception of an instruction is NOT here: it is
taken, as a next state whose `mode` is FAULTED (spec/60_exceptions.md R163). -/
inductive Fault where
  /-- Raised by `step` before the run move. Safe. -/
  | notStarted
  /-- Raised by `step` after HALT. Safe. -/
  | halted
  /-- Raised by `step` after a fault entry. Safe. -/
  | faulted
  deriving DecidableEq, Repr

/-- Why an instruction has no meaning in the model. -/
inductive Refusal where
  /-- Raised by an arm of `exec` for an instruction without a meaning. No arm does so now. Safe. -/
  | notModelled (mnemonic : String)
  deriving DecidableEq, Repr

/-- The RAM (R31, spec/20_memory.md R40): the cells that differ from the reset value 0x00, by rising address. What an unlisted
cell reads as is `Memory.unlisted` and the form is `Memory.wf`, both in Machine/Ops.lean (log 20). -/
abbrev Memory := List Host.Cell

/-- The state of the machine (spec/10_state.md, the tuple at its head, and R31's output history). -/
structure State where
  /-- x[0] .. x[7] (R20); x[7] is the stack pointer (R23). -/
  regs : Vector Byte 8
  /-- The program counter (R25). -/
  pc : Byte
  /-- The flags register (R27). -/
  fl : Byte
  /-- The run state (R28). -/
  mode : Mode
  /-- Why `mode` is FAULTED (R29). -/
  faultCause : FaultCause
  /-- The 256 memory cells (R31). -/
  mem : Memory
  /-- The values handed to the output sink since reset, oldest first (R31, spec/50_interfaces.md R146). -/
  out : List Byte
  deriving DecidableEq, Repr

/-- The machine right after reset (R33, spec/70_reset_and_hazards.md R180): "registers all zero except register 7 = 244 (0xF4);
memory all zero; pc = 0; sp = register 7 (alias); flags = 0; running = false". -/
def State.reset : State where
  regs := #v[0x00, 0x00, 0x00, 0x00, 0x00, 0x00, 0x00, Config.spReset]
  pc := Config.pcReset
  fl := Config.flReset
  mode := .notStarted
  faultCause := .none
  mem := []
  out := []

end Sys2Proof.Machine
end

