-- ==== Sys2Proof/Machine/Ops.lean ====
section
/-! DEFINITION. The named operations every meaning is written over: memory, registers, the program counter, the stack addresses,
the output history, and taking an exception. -/

namespace Sys2Proof.Machine

/-! ### Memory -/

/-- What a cell no entry lists reads as: the reset value of every cell (spec/10_state.md R33, R34). -/
def Memory.unlisted : Byte := 0x00

/-- The canonical form: addresses strictly rising and inside the address space (spec/20_memory.md R40), and no entry equal to what
an unlisted cell reads as. -/
abbrev Memory.wf (m : Memory) : Prop :=
  m.Pairwise (fun c d => c.1 < d.1) ∧ ∀ c ∈ m, c.1 < Config.memSize ∧ c.2 ≠ Memory.unlisted

/-- The byte at a numeric address. -/
def Memory.readAt (m : Memory) (a : Nat) : Byte :=
  match m with
  | [] => Memory.unlisted
  | (k, v) :: rest => if k = a then v else Memory.readAt rest a

/-- Put a cell in front of the first cell with a larger address. -/
def Memory.insertCell (c : Host.Cell) (m : Memory) : Memory :=
  match m with
  | [] => [c]
  | d :: rest => if c.1 < d.1 then c :: d :: rest else d :: Memory.insertCell c rest

/-- Store a byte at a numeric address: the old entry goes, and a value that differs from the unlisted one is listed. -/
def Memory.writeAt (m : Memory) (a : Nat) (v : Byte) : Memory :=
  let others := m.filter fun c => c.1 != a
  if v = Memory.unlisted then others else Memory.insertCell (a, v) others

/-- `MemRead(a, 1)` (spec/20_memory.md R42). Every 8-bit value is the address of an existing cell (R40). -/
def Memory.read (m : Memory) (a : Byte) : Byte := m.readAt a.toNat

/-- `MemWrite(a, 1, v)` (spec/20_memory.md R43). -/
def Memory.write (m : Memory) (a v : Byte) : Memory := m.writeAt a.toNat v

/-- Store a byte string at consecutive addresses, each reduced modulo 256 (spec/20_memory.md R45). -/
def Memory.writeBytes (m : Memory) (a : Byte) (bs : List Byte) : Memory :=
  match bs with
  | [] => m
  | v :: rest => Memory.writeBytes (m.write a v) (a + 1) rest

/-- `MemRead` of the machine's memory. -/
def State.memRead (s : State) (a : Byte) : Byte := s.mem.read a

/-- `MemWrite` of the machine's memory. -/
def State.memWrite (s : State) (a v : Byte) : State := { s with mem := s.mem.write a v }

/-! ### Registers -/

/-- `x[k]` (spec/10_state.md R20). -/
def State.reg (s : State) (k : RegIdx) : Byte := s.regs[k]

/-- `x[k] <- v`. No register is hard-wired (R20). -/
def State.setReg (s : State) (k : RegIdx) (v : Byte) : State := { s with regs := s.regs.set k.val v k.isLt }

/-- `sp`, the other name of `x[7]` (R23). -/
def State.sp (s : State) : Byte := s.reg Config.spIndex

/-- `x[7] <- v` (R23). -/
def State.setSp (s : State) (v : Byte) : State := s.setReg Config.spIndex v

/-- The address PUSH and CALL store to: `(sp - 1) mod 256` (spec/20_memory.md R50; full descending stack, spec/10_state.md R24). -/
def State.pushAddress (s : State) : Byte := s.sp - 1

/-- The address POP and RETURN read: `sp` (spec/20_memory.md R50). -/
def State.popAddress (s : State) : Byte := s.sp

/-! ### Program counter, flags, output, run state -/

/-- `pc <- (pc + n) mod 256` (spec/10_state.md R26, spec/40_execution_loop.md R83). -/
def State.advance (s : State) (n : Byte) : State := { s with pc := s.pc + n }

/-- `pc <- target` (spec/45_compare_and_jump.md R135). -/
def State.jumpTo (s : State) (target : Byte) : State := { s with pc := target }

/-- `fl <- v`, the whole register (spec/45_compare_and_jump.md R130). -/
def State.setFl (s : State) (v : Byte) : State := { s with fl := v }

/-- `Emit(v)`: append to the output history (spec/50_interfaces.md R146). The sink always accepts (D11, log 11). -/
def State.emit (s : State) (v : Byte) : State := { s with out := s.out ++ [v] }

/-- `mode <- HALTED` (spec/41_halt_load_print.md R90). -/
def State.halt (s : State) : State := { s with mode := .halted }

/-! ### Exceptions -/

/-- An operation code at the ALU's input (spec/42_alu.md R100): the two supported ones, and any other. The ALU's own codes are not
specified; the enumeration with an "other" case is what D8 offers (log 8). -/
inductive AluOp where
  | add
  | multiply
  | other (code : Nat)
  deriving DecidableEq, Repr

/-- The two exceptions of the core with the value each reports (spec/60_exceptions.md R160). The value is the spec's "model-level
`info`; not architectural state": fault entry does not store it. -/
inductive Exn where
  /-- Raised by the ALU (R161). -/
  | unsupportedOperation (op : AluOp)
  /-- Raised by `reg(k)` with `k > 7` (R162). -/
  | invalidRegisterIndex (k : Byte)
  deriving DecidableEq, Repr

/-- The cause an exception records (R160). -/
def Exn.cause : Exn → FaultCause
  | .unsupportedOperation _ => .unsupportedOperation
  | .invalidRegisterIndex _ => .invalidRegisterIndex

/-- Fault entry, the one way an exception is taken (spec/60_exceptions.md R163): `mode <- FAULTED`, `fault_cause <- code`, and
registers, `pc`, `fl`, memory and `out` exactly as at the start of the step. There is no return from it: FAULTED is left only
by reset (R164), the host's move in Machine/HostMoves.lean. -/
def State.enterFault (s : State) (e : Exn) : State := { s with mode := .faulted, faultCause := e.cause }

/-- The outcome of a meaning. -/
abbrev Result := Host.Outcome State Fault Refusal

/-- `raise e` (spec/00_scope.md section 6): the step ends with the fault entry from the state at its start. -/
def raiseExn (e : Exn) (s : State) : Result := .next (s.enterFault e)

end Sys2Proof.Machine
end

