-- ==== Sys2Proof/Machine/Operands.lean ====
section
/-! DEFINITION. The operand forms (spec/30_encoding.md R61, R64): no operand, one register-index byte, two register-index bytes, and
a register-index byte with an immediate byte, whose immediate needs no operation (R65: "the 8-bit value `b` itself"). -/

namespace Sys2Proof.Machine

/-- `reg(k)` (R64): the register an operand byte names, or InvalidRegisterIndex for a byte above 7 (decision D4, log 4). -/
def checkReg (k : Byte) : Except Exn RegIdx :=
  if h : k.toNat < 8 then .ok ⟨k.toNat, h⟩ else .error (.invalidRegisterIndex k)

/-- Both register operands, `a` checked first (spec/60_exceptions.md R168). -/
def checkRegs (a b : Byte) : Except Exn (RegIdx × RegIdx) :=
  match checkReg a with
  | .error e => .error e
  | .ok d =>
    match checkReg b with
    | .error e => .error e
    | .ok r => .ok (d, r)

/-- The body of an instruction with one register operand: the check comes before any write (spec/60_exceptions.md R162). -/
def withReg (a : Byte) (s : State) (body : RegIdx → Result) : Result :=
  match checkReg a with
  | .ok d => body d
  | .error e => raiseExn e s

/-- The body of an instruction with two register operands. -/
def withRegs (a b : Byte) (s : State) (body : RegIdx → RegIdx → Result) : Result :=
  match checkRegs a b with
  | .ok (d, r) => body d r
  | .error e => raiseExn e s

end Sys2Proof.Machine
end

