-- ==== Sys2Proof/Machine/Alu.lean ====
section
/-! DEFINITION. The ALU, ADD and MULTIPLY (spec/42_alu.md). -/

namespace Sys2Proof.Machine

/-- The ALU's result for an operation (R100), or UnsupportedOperation for a code outside {ADD, MULTIPLY} (R161). Addition and
multiplication of bytes wrap modulo 256 (R103). -/
def aluResult (op : AluOp) (u v : Byte) : Except Exn Byte :=
  match op with
  | .add => .ok (u + v)
  | .multiply => .ok (u * v)
  | .other code => .error (.unsupportedOperation (.other code))

/-- `alu(op, d, s)` (R100): reads both registers, writes the result to the first. -/
def alu (op : AluOp) (d r : RegIdx) (s : State) : Except Exn State :=
  match aluResult op (s.reg d) (s.reg r) with
  | .ok v => .ok (s.setReg d v)
  | .error e => .error e

/-- The body ADD and MULTIPLY share: check `a`, then `b`, call the ALU, `pc + 3` (R101, R102). -/
def execAlu (op : AluOp) (a b : Byte) (s : State) : Result :=
  withRegs a b s fun d r =>
    match alu op d r s with
    | .ok s' => .next (s'.advance 3)
    | .error e => raiseExn e s

/-- ADD a, b (R101). -/
def execAdd (a b : Byte) (s : State) : Result := execAlu .add a b s

/-- MULTIPLY a, b (R102). -/
def execMultiply (a b : Byte) (s : State) : Result := execAlu .multiply a b s

end Sys2Proof.Machine
end

