-- ==== Sys2Proof/Machine/Flags.lean ====
section
/-! DEFINITION. The flags register's values: what COMPARE leaves in `fl` and what the conditional jumps test, for an arbitrary flag
map (spec/00_scope.md R7), and the default map. -/

namespace Sys2Proof.Machine

/-- The default flag values of R7. PRESUMED (log 2): the spec marks them "from general knowledge, not in source". No program can
observe them (R7); unsafe for claims about the raw value of `fl`. -/
def defaultFlags : FlagMap where
  less := 0x04
  greater := 0x02
  equal := 0x01

/-- The comparator of COMPARE (spec/45_compare_and_jump.md R130): unsigned, exactly one of the three values. -/
def compareFlags (p : FlagMap) (u v : Byte) : Byte :=
  if u.toNat < v.toNat then p.less
  else if v.toNat < u.toNat then p.greater
  else p.equal

/-- The condition `fl == FL_EQUAL`, on the whole register (R131). -/
def flagsEqual (p : FlagMap) (fl : Byte) : Bool := fl == p.equal

/-- The four values `fl` can hold (spec/10_state.md R27 (a)): 0x00 before the first COMPARE, or one of the three. -/
def flagsLegal (p : FlagMap) (fl : Byte) : Bool := fl == Config.flReset || fl == p.less || fl == p.greater || fl == p.equal

end Sys2Proof.Machine
end

