-- ==== Sys2Proof/Machine/CompareJump.lean ====
section
/-! DEFINITION. COMPARE, JUMP_EQUAL, JUMP, JUMP_NOT_EQUAL (spec/45_compare_and_jump.md). The three
instructions that write or test a flag value take the flag map as an argument (spec/00_scope.md R7, decision D2:
"OPEN as parameters"); the meanings of the default machine are those at `defaultFlags` (log 2). -/

namespace Sys2Proof.Machine

/-- COMPARE a, b (R130) under a flag map: the whole of `fl` is replaced by one of the three values; `pc + 3`. -/
def execCompareWith (p : FlagMap) (a b : Byte) (s : State) : Result :=
  withRegs a b s fun d r => .next ((s.setFl (compareFlags p (s.reg d) (s.reg r))).advance 3)

/-- JUMP_EQUAL a (R131) under a flag map. The operand is checked whether or not the jump is taken (decision D4, log 4). -/
def execJumpEqualWith (p : FlagMap) (a : Byte) (s : State) : Result :=
  withReg a s fun t => .next (if flagsEqual p s.fl then s.jumpTo (s.reg t) else s.advance 2)

/-- JUMP_NOT_EQUAL a (R133) under a flag map. The operand is checked whether or not the jump is taken (decision D4, log 4). -/
def execJumpNotEqualWith (p : FlagMap) (a : Byte) (s : State) : Result :=
  withReg a s fun t => .next (if flagsEqual p s.fl then s.advance 2 else s.jumpTo (s.reg t))

/-- COMPARE a, b (R130) with the default flag values. -/
def execCompare (a b : Byte) (s : State) : Result := execCompareWith defaultFlags a b s

/-- JUMP_EQUAL a (R131) with the default flag values. -/
def execJumpEqual (a : Byte) (s : State) : Result := execJumpEqualWith defaultFlags a s

/-- JUMP a (R132). -/
def execJump (a : Byte) (s : State) : Result :=
  withReg a s fun t => .next (s.jumpTo (s.reg t))

/-- JUMP_NOT_EQUAL a (R133) with the default flag values. -/
def execJumpNotEqual (a : Byte) (s : State) : Result := execJumpNotEqualWith defaultFlags a s

end Sys2Proof.Machine
end

