-- ==== Sys2Proof/Machine/HaltLoadPrint.lean ====
section
/-! DEFINITION. HALT, LOAD_IMMEDIATE, PRINT_REG (spec/41_halt_load_print.md). -/

namespace Sys2Proof.Machine

/-- HALT (R90): `mode <- HALTED`; `pc` keeps the address of the HALT byte (decision D5, log 5). -/
def execHalt (s : State) : Result := .next s.halt

/-- LOAD_IMMEDIATE a, b (R91): `x[a] <- b`, `pc + 3`. -/
def execLoadImmediate (a imm : Byte) (s : State) : Result :=
  withReg a s fun d => .next ((s.setReg d imm).advance 3)

/-- PRINT_REG a (R92): `Emit(x[a])`, `pc + 2`. -/
def execPrintReg (a : Byte) (s : State) : Result :=
  withReg a s fun r => .next ((s.emit (s.reg r)).advance 2)

end Sys2Proof.Machine
end

