-- ==== Sys2Proof/Machine/Stack.lean ====
section
/-! DEFINITION. PUSH and POP (spec/43_stack.md). The statements of each body run in the written order on the one storage element
`x[7]`, which is observable when the operand is register 7 (decision D12, log 12). -/

namespace Sys2Proof.Machine

/-- PUSH a (R110): `sp` is decremented, then `x[a]` is read and stored at the new `sp`; `pc + 2`. -/
def execPush (a : Byte) (s : State) : Result :=
  withReg a s fun r =>
    let s1 := s.setSp s.pushAddress
    .next ((s1.memWrite s.pushAddress (s1.reg r)).advance 2)

/-- POP a (R111): `x[a]` receives the byte at `sp`, then `x[7]` is incremented; `pc + 2`. -/
def execPop (a : Byte) (s : State) : Result :=
  withReg a s fun d =>
    let s1 := s.setReg d (s.memRead s.popAddress)
    .next ((s1.setSp (s1.sp + 1)).advance 2)

end Sys2Proof.Machine
end

