-- ==== Sys2Proof/Machine/Subroutine.lean ====
section
/-! DEFINITION. CALL and RETURN (spec/44_subroutine.md). -/

namespace Sys2Proof.Machine

/-- CALL a (R120): the return address `(pc + 2) mod 256` is stored at `sp - 1`, `sp` is decremented, and `pc` receives `x[a]` as
read after the decrement (decision D12, log 12). -/
def execCall (a : Byte) (s : State) : Result :=
  withReg a s fun t =>
    let s1 := (s.memWrite s.pushAddress (s.pc + 2)).setSp s.pushAddress
    .next (s1.jumpTo (s1.reg t))

/-- RETURN (R121): `pc` receives the byte at `sp`, then `sp` is incremented. -/
def execRet (s : State) : Result :=
  .next ((s.jumpTo (s.memRead s.popAddress)).setSp (s.sp + 1))

end Sys2Proof.Machine
end

