-- ==== Sys2Proof/Machine/Dispatch.lean ====
section
/-! DEFINITION. The meaning of each instruction, one arm per constructor (spec/40_execution_loop.md R80, the case of the step). -/

namespace Sys2Proof.Machine

def exec (i : Instr) (s : State) : Host.Outcome State Fault Refusal :=
  match i with
  | .halt => Sys2Proof.Machine.execHalt s
  | .loadImmediate a imm => Sys2Proof.Machine.execLoadImmediate a imm s
  | .printReg a => Sys2Proof.Machine.execPrintReg a s
  | .add a b => Sys2Proof.Machine.execAdd a b s
  | .multiply a b => Sys2Proof.Machine.execMultiply a b s
  | .push a => Sys2Proof.Machine.execPush a s
  | .pop a => Sys2Proof.Machine.execPop a s
  | .call a => Sys2Proof.Machine.execCall a s
  | .ret => Sys2Proof.Machine.execRet s
  | .compare a b => Sys2Proof.Machine.execCompare a b s
  | .jumpEqual a => Sys2Proof.Machine.execJumpEqual a s
  | .jump a => Sys2Proof.Machine.execJump a s
  | .jumpNotEqual a => Sys2Proof.Machine.execJumpNotEqual a s

end Sys2Proof.Machine
end

