-- ==== Sys2Proof/Machine/Engine.lean ====
section
/-! DEFINITION. The fetch-decode-execute step of the machine with any parameters (opcode map, spec/00_scope.md R6, and flag map, R7),
and the undefined-opcode no-op (spec/40_execution_loop.md). -/

namespace Sys2Proof.Machine

/-- The three fetch reads of every step: `mem[pc]`, `mem[pc + 1]`, `mem[pc + 2]`, addresses modulo 256 (R81). -/
def State.fetch (s : State) : Fetched := ⟨s.memRead s.pc, s.memRead (s.pc + 1), s.memRead (s.pc + 2)⟩

/-- The undefined-opcode no-op (R84): `pc + 1` and nothing else, whatever the byte is; never a trap (spec/60_exceptions.md R165). -/
def execUndefinedOpcode (s : State) : Result := .next (s.advance 1)

/-- The meaning of an instruction in the machine with flag map `p` (spec/00_scope.md R7): `exec` is the one at `defaultFlags`. Only the
three instructions that write or test a flag value depend on the map (spec/10_state.md R27). -/
def execWith (p : FlagMap) (i : Instr) (s : State) : Result :=
  match i with
  | .compare a b => execCompareWith p a b s
  | .jumpEqual a => execJumpEqualWith p a s
  | .jumpNotEqual a => execJumpNotEqualWith p a s
  | .halt | .loadImmediate _ _ | .printReg _ | .add _ _ | .multiply _ _ | .push _ | .pop _ | .call _ | .ret | .jump _ => exec i s

/-- The case of R80. -/
def runDecoded (p : FlagMap) (d : Decoded) (s : State) : Result :=
  match d with
  | .instr i => execWith p i s
  | .undefinedOpcode _ => execUndefinedOpcode s

/-- The parameters of the default machine (R6, R7; PRESUMED, log 1, log 2). -/
def defaultParams : Params := ⟨defaultOpcodes, defaultFlags⟩

/-- One step of the engine of the machine with parameters `c` (R80): taken exactly when `mode` is RUNNING; otherwise no step is taken,
and the outcome names the run state (log 17). -/
def stepWith (c : Params) (s : State) : Result :=
  match s.mode with
  | .running => runDecoded c.flags (decodeWith c.opcodes s.fetch) s
  | .notStarted => .fault .notStarted
  | .halted => .fault .halted
  | .faulted => .fault .faulted

/-- The three bytes of a fetched word stored at `pc`, `pc + 1`, `pc + 2`. -/
def State.placeAtPc (s : State) (w : Fetched) : State := { s with mem := s.mem.writeBytes s.pc w.toList }

/-- `s` with a fetched word in place and the engine running, as the load and run moves would leave it (spec/50_interfaces.md R142,
R144; log 18). -/
def State.placeAndRun (s : State) (w : Fetched) : State := { s.placeAtPc w with mode := .running }

end Sys2Proof.Machine
end

