-- ==== Sys2Proof/Machine/Step.lean ====
section
/-! DEFINITION. The machine's step, with the default parameters, and the host's way to place one instruction. -/

namespace Sys2Proof.Machine

/-- One step of the machine (spec/40_execution_loop.md R80). -/
def step (s : State) : Host.Outcome State Fault Refusal := stepWith defaultParams s

/-- `s` with the table word `w` where the next step fetches and the engine running (log 18). -/
def State.withFetchWord (s : State) (nbits w : Nat) : State := s.placeAndRun (wordBytes nbits w)

end Sys2Proof.Machine
end

