-- ==== Sys2Proof/Machine/HostMoves.lean ====
section
/-! DEFINITION. What crosses the boundary of the core (spec/50_interfaces.md): the host's moves, each refused by name where the spec
does not allow it, and what the host may read. None of them is part of `step`. -/

namespace Sys2Proof.Machine

/-- Why a host move is not performed; the state is then unchanged (spec/93_implementation_defined.md U16, U17: `refuse`). -/
inductive MoveRefusal where
  /-- The move is not allowed in this run state (R142, R144, R150, R152). Safe. -/
  | wrongMode (mode : Mode)
  /-- The stream is longer than `MAX_PROGRAM` (R142, decision D10, log 10). Safe. -/
  | streamTooLong (length : Nat)
  deriving DecidableEq, Repr

/-- The reset move: any mode, any time between steps, always the same state (spec/70_reset_and_hazards.md R180, R181; D15, log 15). -/
def hostReset (_ : State) : State := State.reset

/-- The load move (R142): in NOT_STARTED only, at most 256 bytes, `mem[i] <- bytes[i]` from `LOAD_BASE`. -/
def hostLoad (bytes : List Byte) (s : State) : Except MoveRefusal State :=
  if s.mode ≠ .notStarted then .error (.wrongMode s.mode)
  else if Config.maxProgram < bytes.length then .error (.streamTooLong bytes.length)
  else .ok { s with mem := s.mem.writeBytes (BitVec.ofNat 8 Config.loadBase) bytes }

/-- The run move (R144): in NOT_STARTED only, `mode <- RUNNING` and nothing else. -/
def hostRun (s : State) : Except MoveRefusal State :=
  if s.mode ≠ .notStarted then .error (.wrongMode s.mode) else .ok { s with mode := .running }

/-- The exposed `read_memory` (R152): only while `mode != RUNNING`, the address modulo 256. -/
def hostReadMemory (address : Nat) (s : State) : Except MoveRefusal Byte :=
  if s.mode = .running then .error (.wrongMode s.mode) else .ok (s.memRead (BitVec.ofNat 8 address))

/-- The exposed `write_memory` (R152): only while `mode != RUNNING`, address and value modulo 256. It restarts nothing. -/
def hostWriteMemory (address value : Nat) (s : State) : Except MoveRefusal State :=
  if s.mode = .running then .error (.wrongMode s.mode)
  else .ok (s.memWrite (BitVec.ofNat 8 address) (BitVec.ofNat 8 value))

/-- The moves by which the host changes the state (R140, R150). -/
inductive HostMove where
  | reset
  | load (bytes : List Byte)
  | run
  | writeMemory (address value : Nat)
  deriving DecidableEq, Repr

/-- One host move. -/
def hostMove (mv : HostMove) (s : State) : Except MoveRefusal State :=
  match mv with
  | .reset => .ok (hostReset s)
  | .load bytes => hostLoad bytes s
  | .run => hostRun s
  | .writeMemory address value => hostWriteMemory address value s

/-- What the trace hook may read between steps, with no effect (R149, spec/40_execution_loop.md R87): `pc`, the three bytes at
`pc`, all registers, and `fl`. DESIGN CHOICE (log 22): R149's list has no `fl`, while spec/00_scope.md R7, spec/10_state.md R27 (c)
and decision D2 say that the trace hook shows it, and no file of the spec rules between them; the model's view shows it. -/
structure TraceView where
  pc : Byte
  bytes : Fetched
  regs : Vector Byte 8
  /-- The raw flags byte (R7, R27 (c), D2; not in R149's list, log 22). -/
  fl : Byte
  deriving DecidableEq, Repr

/-- The trace hook's reading of a state (R149; with `fl`, log 22). -/
def State.trace (s : State) : TraceView := ⟨s.pc, s.fetch, s.regs, s.fl⟩

/-- The source's running flag (spec/10_state.md R28). -/
def State.running (s : State) : Bool := s.mode == .running

/-- The halted indication (R147). -/
def State.haltedIndication (s : State) : Bool := s.mode == .halted

/-- The fault indication with its cause code (R148). -/
def State.faultIndication (s : State) : Option Nat := if s.mode = .faulted then some s.faultCause.code else none

end Sys2Proof.Machine
end

