-- ==== Sys2Proof/Safety.lean ====
section
/-! DEFINITION. What counts as a legal state and a legal history of the machine, in the terms the statements use. -/

namespace Sys2Proof.Machine

/-- The state invariant of the machine with flag map `p`: the memory is in canonical form; `fl` holds 0x00 or one of the three flag
values (spec/10_state.md R27 (a)); a cause is recorded exactly in FAULTED (R29, spec/60_exceptions.md R163); and the cause is never
UnsupportedOperation, which no instruction stream can raise (spec/60_exceptions.md R161). -/
structure State.Inv (p : FlagMap) (s : State) : Prop where
  mem_wf : s.mem.wf
  fl_legal : flagsLegal p s.fl = true
  cause_iff : s.faultCause ≠ .none ↔ s.mode = .faulted
  cause_supported : s.faultCause ≠ .unsupportedOperation

/-- One event of a history: a step of the engine, or a host move that is performed (spec/50_interfaces.md R140). -/
inductive Event where
  | step
  | host (mv : HostMove)
  deriving DecidableEq, Repr

/-- The event happens in `s` and leaves `t`, in the machine with parameters `c`. -/
def Happens (c : Params) (e : Event) (s t : State) : Prop :=
  match e with
  | .step => stepWith c s = .next t
  | .host mv => hostMove mv s = .ok t

/-- The states some history from reset leads to. -/
inductive Reachable (c : Params) : State → Prop where
  | reset : Reachable c State.reset
  | event {s t : State} (e : Event) : Reachable c s → Happens c e s t → Reachable c t

/-! ### Two flag maps -/

/-- The values of `fl` that say the same under two flag maps: no COMPARE yet, or the same outcome of the last one
(spec/10_state.md R27 (a), (b)). -/
def SameOutcome (p q : FlagMap) (f g : Byte) : Prop :=
  (f = 0x00 ∧ g = 0x00) ∨ (f = p.less ∧ g = q.less) ∨ (f = p.greater ∧ g = q.greater) ∨ (f = p.equal ∧ g = q.equal)

/-- A state `s` of the machine with flag map `p` and a state `t` of the machine with flag map `q` that agree on everything but how the
outcome of the last COMPARE is coded in `fl` (spec/00_scope.md R7). -/
structure AgreeButForFlagCoding (p q : FlagMap) (s t : State) : Prop where
  fl : SameOutcome p q s.fl t.fl
  reg : ∀ k, t.reg k = s.reg k
  pc : t.pc = s.pc
  mode : t.mode = s.mode
  faultCause : t.faultCause = s.faultCause
  mem : t.mem = s.mem
  out : t.out = s.out

/-! ### Frames -/

/-- What `t` keeps of `s`: every register but the listed ones, and every memory cell, read one byte at a time, but the listed ones. -/
structure Keeps (s t : State) (regs : List RegIdx) (cells : List Byte) : Prop where
  reg : ∀ k, k ∉ regs → t.reg k = s.reg k
  memRead : ∀ x, x ∉ cells → t.memRead x = s.memRead x

/-- The fault entry for a bad register index (spec/60_exceptions.md R160, R163), field by field: FAULTED with cause 2, and
registers, `pc`, `fl`, memory and `out` exactly as at the start of the step. -/
structure TakesInvalidRegisterIndex (s t : State) : Prop where
  mode : t.mode = .faulted
  code : t.faultCause.code = 2
  reg : ∀ k, t.reg k = s.reg k
  pc : t.pc = s.pc
  fl : t.fl = s.fl
  mem : t.mem = s.mem
  out : t.out = s.out

/-- The "writes" column of spec/10_state.md R21. -/
def WritesReg (i : Instr) (k : RegIdx) : Prop :=
  match i with
  | .halt => False
  | .loadImmediate a _ => a.toNat = k.val
  | .printReg _ => False
  | .add a _ => a.toNat = k.val
  | .multiply a _ => a.toNat = k.val
  | .push _ => k.val = 7
  | .pop a => a.toNat = k.val ∨ k.val = 7
  | .call _ => k.val = 7
  | .ret => k.val = 7
  | .compare _ _ => False
  | .jumpEqual _ => False
  | .jump _ => False
  | .jumpNotEqual _ => False

/-- The "reads" column of spec/10_state.md R21; "the two conditional jumps only when taken". -/
def ReadsReg (i : Instr) (s : State) (k : RegIdx) : Prop :=
  match i with
  | .halt => False
  | .loadImmediate _ _ => False
  | .printReg a => a.toNat = k.val
  | .add a b => a.toNat = k.val ∨ b.toNat = k.val
  | .multiply a b => a.toNat = k.val ∨ b.toNat = k.val
  | .push a => k.val = 7 ∨ a.toNat = k.val
  | .pop _ => k.val = 7
  | .call a => k.val = 7 ∨ a.toNat = k.val
  | .ret => k.val = 7
  | .compare a b => a.toNat = k.val ∨ b.toNat = k.val
  | .jumpEqual a => s.fl = defaultFlags.equal ∧ a.toNat = k.val
  | .jump a => a.toNat = k.val
  | .jumpNotEqual a => s.fl ≠ defaultFlags.equal ∧ a.toNat = k.val

end Sys2Proof.Machine
end

