-- ==== Sys2Proof/Certificates/Slice0/Obligations.lean ====
section
/-! DEFINITION. The statements about the machine, for the provers. A statement whose docstring names a rule R<n> as its whole
content has basis 'stated' in OBLIGATIONS.json: the Lean states the whole rule, and the rule's own text carries no mark "decision",
"derived" or "from general knowledge". Every other one has basis 'derived' and names the spec's decision (Dn) or the log entry
(log n) it rests on. An operand byte `a` names register `d` when `a.toNat = d.val`. -/

open Sys2Proof Sys2Proof.Machine

/-! ### Reset -/

/-- R180: reset gives, from any state, every register 0 except register 7 = 0xF4, `pc` 0, `fl` 0, NOT_STARTED, cause 0, every memory
cell 0 and an empty output history; and that is the machine's reset state. -/
def Obligations.ResetGivesTheResetState : Prop :=
  ∀ s : State,
    (∀ k : RegIdx, k ≠ 7 → (hostReset s).reg k = 0x00) ∧ (hostReset s).reg 7 = 0xF4 ∧ (hostReset s).sp = (hostReset s).reg 7 ∧
    (hostReset s).pc = 0x00 ∧ (hostReset s).fl = 0x00 ∧ (hostReset s).mode = .notStarted ∧
    (hostReset s).faultCause.code = 0 ∧ (∀ x : Byte, (hostReset s).memRead x = 0x00) ∧ (hostReset s).out = [] ∧
    hostReset s = State.reset

/-! ### Encoding -/

/-- Decode and encode agree for EVERY opcode map with distinct bytes (R6, R60, R61, R63, decision D1's advice), every instruction,
every operand byte, and whatever bytes follow the instruction. -/
def Obligations.DecodeOfEncodeIsTheInstruction : Prop :=
  ∀ m : OpcodeMap, m.Distinct → ∀ (i : Instr) (rest : List Byte),
    decodeWith m (Fetched.ofList (encodeWith m i ++ rest)) = .instr i

/-- Each fetched word has one meaning: what decodes to an instruction is that instruction's own bytes, and what decodes to no
instruction has an opcode byte of no row (R60, R67, R68). -/
def Obligations.EncodeOfDecodeIsTheFetchedBytes : Prop :=
  ∀ (m : OpcodeMap) (w : Fetched),
    (∀ i, decodeWith m w = .instr i → encodeWith m i = w.toList.take i.opcode.length) ∧
    (∀ ir, decodeWith m w = .undefinedOpcode ir → ir = w.ir ∧ ∀ op, m.byte op ≠ ir)

/-- R67: the decoder matches the whole opcode byte; every byte value equals exactly one of the 13 distinct parameters, and decodes to
that row, or is an undefined opcode. -/
def Obligations.DecoderMatchesTheWholeOpcodeByte : Prop :=
  ∀ m : OpcodeMap, m.Distinct → ∀ w : Fetched,
    (∃ op, m.byte op = w.ir ∧ (∀ op', m.byte op' = w.ir → op' = op) ∧ ∃ i, decodeWith m w = .instr i ∧ i.opcode = op) ∨
    ((∀ op, m.byte op ≠ w.ir) ∧ decodeWith m w = .undefinedOpcode w.ir)

/-- R68's count: for every opcode map with distinct bytes, 243 of the 256 byte values are undefined opcodes. -/
def Obligations.UndefinedOpcodesAre243 : Prop :=
  ∀ m : OpcodeMap, m.Distinct →
    ((List.range 256).filter fun n => (m.lookup (BitVec.ofNat 8 n)).isNone).length = 243

/-- Sanity: a few words, bit by bit as R61 and R66 lay them out. The opcode byte values are R66's defaults, which the spec takes from
general knowledge (D1; PRESUMED, log 1). -/
def Obligations.DefaultWordsDecode : Prop :=
  decode ⟨0b00000001, 0x00, 0x00⟩ = .instr .halt ∧
  decode ⟨0b10000010, 0b00000011, 0b11111111⟩ = .instr (.loadImmediate 3 255) ∧
  decode ⟨0b10100000, 0b00000111, 0b00000001⟩ = .instr (.add 7 1) ∧
  decode ⟨0b01000101, 0b00000010, 0b00000000⟩ = .instr (.push 2) ∧
  decode ⟨0b01010000, 0b00000001, 0b00000000⟩ = .instr (.call 1) ∧
  decode ⟨0b01010110, 0b00000101, 0b00000000⟩ = .instr (.jumpNotEqual 5) ∧
  decode ⟨0b10100001, 0b00000000, 0b00000001⟩ = .undefinedOpcode 0xA1

/-- R60: an instruction is one, two or three bytes, `1 + operand_count`; the machine's fetch decodes to `i` exactly when byte j of the
encoding stands at `(pc + j) mod 256` for every j below the length. -/
def Obligations.InstructionBytesStandAtThePc : Prop :=
  ∀ m : OpcodeMap, m.Distinct → ∀ (i : Instr) (s : State),
    (encodeWith m i).length = 1 + i.opcode.operandCount ∧ 1 ≤ (encodeWith m i).length ∧ (encodeWith m i).length ≤ 3 ∧
    (encodeWith m i).getD 0 0 = m.byte i.opcode ∧
    (decodeWith m s.fetch = .instr i ↔
      ∀ j, j < (encodeWith m i).length → s.memRead (s.pc + BitVec.ofNat 8 j) = (encodeWith m i).getD j 0)

/-! ### The step -/

/-- A step runs the decoded instruction: in RUNNING, where the three bytes at `pc`, `pc + 1`, `pc + 2` (modulo 256) decode to `i`, the
step is exactly the meaning of `i`; the step adds nothing around it, since each body writes `pc` itself (R80, R81; the three
reads are D14). -/
def Obligations.StepRunsTheDecodedInstruction : Prop :=
  ∀ (s : State) (i : Instr), s.mode = .running →
    decode ⟨s.memRead s.pc, s.memRead (s.pc + 1), s.memRead (s.pc + 2)⟩ = .instr i →
    step s = exec i s

/-- R84: in RUNNING, an IR equal to none of the 13 opcode parameters advances `pc` by 1 modulo 256 and changes nothing else, whatever
the bytes after it are. For every opcode map and flag map. -/
def Obligations.UndefinedOpcodeIsAOneByteNoOp : Prop :=
  ∀ (c : Params) (s : State), s.mode = .running → (∀ op, c.opcodes.byte op ≠ s.memRead s.pc) →
    ∃ t, stepWith c s = .next t ∧ t.pc.toNat = (s.pc.toNat + 1) % 256 ∧ Keeps s t [] [] ∧ t.fl = s.fl ∧ t.mode = s.mode ∧
      t.faultCause = s.faultCause ∧ t.out = s.out

/-- "The engine takes a step exactly when mode == RUNNING" (R80), and then it always answers a next state (R12); in the other run
states it takes none, which the model says by a stop named after the run state (DESIGN CHOICE, log 17). -/
def Obligations.StepIsTakenExactlyWhenRunning : Prop :=
  ∀ (c : Params) (s : State),
    ((∃ t, stepWith c s = .next t) ↔ s.mode = .running) ∧
    (s.mode = .notStarted → stepWith c s = .fault .notStarted) ∧
    (s.mode = .halted → stepWith c s = .fault .halted) ∧
    (s.mode = .faulted → stepWith c s = .fault .faulted)

/-! ### The instructions -/

/-- HALT (rule R90): `mode` becomes HALTED and nothing else changes. That `pc` is unchanged is the spec's decision D5 (log 5). -/
def Obligations.HaltStopsTheRun : Prop :=
  ∀ s : State, ∃ t, exec .halt s = .next t ∧ t.mode = .halted ∧ t.pc = s.pc ∧ Keeps s t [] [] ∧ t.fl = s.fl ∧
    t.faultCause = s.faultCause ∧ t.out = s.out

/-- R91, LOAD_IMMEDIATE: `x[a]` receives the immediate byte itself, `pc + 3`, nothing else changes; a byte `a` above 7 raises
InvalidRegisterIndex before any write (the rule's own sentence; the spec's decision D4 stands behind R64, log 4). -/
def Obligations.LoadImmediateWritesTheByte : Prop :=
  ∀ (a imm : Byte) (s : State),
    (∀ m : OpcodeMap, encodeWith m (.loadImmediate a imm) = [m.byte .loadImmediate, a, imm]) ∧
    (∀ d : RegIdx, a.toNat = d.val → ∃ t, exec (.loadImmediate a imm) s = .next t ∧ t.reg d = imm ∧
      t.pc.toNat = (s.pc.toNat + 3) % 256 ∧ Keeps s t [d] [] ∧ t.fl = s.fl ∧ t.mode = s.mode ∧
      t.faultCause = s.faultCause ∧ t.out = s.out) ∧
    (7 < a.toNat → ∃ t, exec (.loadImmediate a imm) s = .next t ∧ TakesInvalidRegisterIndex s t)

/-- PRINT_REG (rule R92): the register's value is appended to the output history, `pc + 2`, nothing else changes. That the sink never
stalls is the spec's decision D11 (log 11). -/
def Obligations.PrintRegEmitsTheRegister : Prop :=
  ∀ (a : Byte) (s : State) (d : RegIdx), a.toNat = d.val →
    ∃ t, exec (.printReg a) s = .next t ∧ t.out = s.out ++ [s.reg d] ∧ t.pc.toNat = (s.pc.toNat + 2) % 256 ∧
      Keeps s t [] [] ∧ t.fl = s.fl ∧ t.mode = s.mode ∧ t.faultCause = s.faultCause

/-- R101, ADD: `x[a]` receives the sum of the two registers modulo 256, both read before the write; `pc + 3`; no flag; nothing else
changes; a register byte above 7 raises InvalidRegisterIndex, `a` first, before any write (D4 stands behind R64, log 4). -/
def Obligations.AddIsTheSumModulo256 : Prop :=
  ∀ (a b : Byte) (s : State),
    (∀ m : OpcodeMap, encodeWith m (.add a b) = [m.byte .add, a, b]) ∧
    (∀ d r : RegIdx, a.toNat = d.val → b.toNat = r.val → ∃ t, exec (.add a b) s = .next t ∧
      (t.reg d).toNat = ((s.reg d).toNat + (s.reg r).toNat) % 256 ∧ t.pc.toNat = (s.pc.toNat + 3) % 256 ∧
      Keeps s t [d] [] ∧ t.fl = s.fl ∧ t.mode = s.mode ∧ t.faultCause = s.faultCause ∧ t.out = s.out) ∧
    (7 < a.toNat ∨ 7 < b.toNat → (∃ t, exec (.add a b) s = .next t ∧ TakesInvalidRegisterIndex s t) ∧
      checkRegs a b = .error (.invalidRegisterIndex (if 7 < a.toNat then a else b)))

/-- R102, MULTIPLY: `x[a]` receives the low 8 bits of the unsigned product, both registers read before the write; `pc + 3`; no flag;
nothing else changes; a register byte above 7 raises InvalidRegisterIndex, `a` first, before any write (D4 behind R64, log 4). -/
def Obligations.MultiplyIsTheProductModulo256 : Prop :=
  ∀ (a b : Byte) (s : State),
    (∀ m : OpcodeMap, encodeWith m (.multiply a b) = [m.byte .multiply, a, b]) ∧
    (∀ d r : RegIdx, a.toNat = d.val → b.toNat = r.val → ∃ t, exec (.multiply a b) s = .next t ∧
      (t.reg d).toNat = ((s.reg d).toNat * (s.reg r).toNat) % 256 ∧ t.pc.toNat = (s.pc.toNat + 3) % 256 ∧
      Keeps s t [d] [] ∧ t.fl = s.fl ∧ t.mode = s.mode ∧ t.faultCause = s.faultCause ∧ t.out = s.out) ∧
    (7 < a.toNat ∨ 7 < b.toNat → (∃ t, exec (.multiply a b) s = .next t ∧ TakesInvalidRegisterIndex s t) ∧
      checkRegs a b = .error (.invalidRegisterIndex (if 7 < a.toNat then a else b)))

/-- PUSH (rule R110): `sp` goes down by 1 modulo 256 and the register's value is stored at the new `sp`, the address the meaning
computes with `State.pushAddress`; `pc + 2`; nothing else changes. That PUSH of register 7 stores the decremented `sp` is the
spec's decision D12 (log 12). -/
def Obligations.PushStoresBelowTheStackPointer : Prop :=
  ∀ (a : Byte) (s : State) (d : RegIdx), a.toNat = d.val →
    ∃ t, exec (.push a) s = .next t ∧ t.sp = s.pushAddress ∧ t.sp.toNat = (s.sp.toNat + 255) % 256 ∧
      t.memRead s.pushAddress = (if d = 7 then s.pushAddress else s.reg d) ∧
      t.pc.toNat = (s.pc.toNat + 2) % 256 ∧ Keeps s t [7] [s.pushAddress] ∧ t.fl = s.fl ∧ t.mode = s.mode ∧
      t.faultCause = s.faultCause ∧ t.out = s.out

/-- POP (rule R111): the register receives the byte at `sp` and `sp` goes up by 1 modulo 256; `pc + 2`; memory is not changed. That POP
of register 7 leaves the loaded byte plus 1 is the spec's decision D12 (log 12). -/
def Obligations.PopLoadsFromTheStackPointer : Prop :=
  ∀ (a : Byte) (s : State) (d : RegIdx), a.toNat = d.val →
    ∃ t, exec (.pop a) s = .next t ∧
      (d ≠ 7 → t.reg d = s.memRead s.sp ∧ t.sp.toNat = (s.sp.toNat + 1) % 256) ∧
      (d = 7 → t.sp.toNat = ((s.memRead s.sp).toNat + 1) % 256) ∧
      t.pc.toNat = (s.pc.toNat + 2) % 256 ∧ Keeps s t [d, 7] [] ∧ t.fl = s.fl ∧ t.mode = s.mode ∧
      t.faultCause = s.faultCause ∧ t.out = s.out

/-- CALL (rule R120): `(pc + 2) mod 256` is stored below `sp`, at the address the meaning computes with `State.pushAddress`, `sp` goes
down by 1, and `pc` receives the register; nothing else changes. That CALL of register 7 jumps to the decremented `sp` is the
spec's decision D12 (log 12). -/
def Obligations.CallPushesTheReturnAddress : Prop :=
  ∀ (a : Byte) (s : State) (d : RegIdx), a.toNat = d.val →
    ∃ t, exec (.call a) s = .next t ∧ t.sp = s.pushAddress ∧ t.sp.toNat = (s.sp.toNat + 255) % 256 ∧
      (t.memRead s.pushAddress).toNat = (s.pc.toNat + 2) % 256 ∧
      t.pc = (if d = 7 then s.pushAddress else s.reg d) ∧ Keeps s t [7] [s.pushAddress] ∧ t.fl = s.fl ∧
      t.mode = s.mode ∧ t.faultCause = s.faultCause ∧ t.out = s.out

/-- R121, RETURN: one byte; `pc` receives the byte at `sp`, `sp` goes up by 1 modulo 256; memory, flags and every other register are
unchanged; no exception, in every state. -/
def Obligations.ReturnPopsThePc : Prop :=
  ∀ s : State,
    (∀ m : OpcodeMap, encodeWith m .ret = [m.byte .ret]) ∧
    ∃ t, exec .ret s = .next t ∧ t.pc = s.memRead s.sp ∧ t.sp.toNat = (s.sp.toNat + 1) % 256 ∧ Keeps s t [7] [] ∧
      t.fl = s.fl ∧ t.mode = s.mode ∧ t.faultCause = s.faultCause ∧ t.out = s.out

/-- R130, COMPARE: the whole of `fl` is replaced by LESS, GREATER or EQUAL by the unsigned order of the two registers; `pc + 3`; no
register and no cell changes; a register byte above 7 raises InvalidRegisterIndex, `a` first, before any write (D4 behind R64,
log 4). -/
def Obligations.CompareSetsExactlyOneFlag : Prop :=
  ∀ (a b : Byte) (s : State),
    (∀ m : OpcodeMap, encodeWith m (.compare a b) = [m.byte .compare, a, b]) ∧
    (∀ p q : RegIdx, a.toNat = p.val → b.toNat = q.val → ∃ t, exec (.compare a b) s = .next t ∧
      ((s.reg p).toNat < (s.reg q).toNat → t.fl = defaultFlags.less) ∧
      ((s.reg p).toNat > (s.reg q).toNat → t.fl = defaultFlags.greater) ∧
      ((s.reg p).toNat = (s.reg q).toNat → t.fl = defaultFlags.equal) ∧
      t.fl.toNat / 8 = 0 ∧ t.pc.toNat = (s.pc.toNat + 3) % 256 ∧ Keeps s t [] [] ∧ t.mode = s.mode ∧
      t.faultCause = s.faultCause ∧ t.out = s.out) ∧
    (7 < a.toNat ∨ 7 < b.toNat → (∃ t, exec (.compare a b) s = .next t ∧ TakesInvalidRegisterIndex s t) ∧
      checkRegs a b = .error (.invalidRegisterIndex (if 7 < a.toNat then a else b)))

/-- R132, JUMP: `pc` receives the register; flags neither read nor written, nothing pushed, nothing else changes; a register byte above
7 raises InvalidRegisterIndex (D4 behind R64, log 4). -/
def Obligations.JumpAlwaysTransfersControl : Prop :=
  ∀ (a : Byte) (s : State),
    (∀ m : OpcodeMap, encodeWith m (.jump a) = [m.byte .jump, a]) ∧
    (∀ d : RegIdx, a.toNat = d.val → ∃ t, exec (.jump a) s = .next t ∧ t.pc = s.reg d ∧ Keeps s t [] [] ∧
      t.fl = s.fl ∧ t.mode = s.mode ∧ t.faultCause = s.faultCause ∧ t.out = s.out) ∧
    (7 < a.toNat → ∃ t, exec (.jump a) s = .next t ∧ TakesInvalidRegisterIndex s t)

/-- R134, the compare-and-branch laws and the outcome table: COMPARE leaves one of the three values by the relation of the registers;
with `fl` EQUAL, JUMP_EQUAL transfers control and JUMP_NOT_EQUAL goes to `pc + 2`; with `fl` 0x00, GREATER or LESS it is the other
way round; JUMP transfers control in every row. JUMP_EQUAL and JUMP_NOT_EQUAL change `pc` alone. The statement names the three
values and says nothing of the default bytes behind them (log 2). -/
def Obligations.CompareAndBranchLaws : Prop :=
  (∀ (a b : Byte) (s : State) (p q : RegIdx), a.toNat = p.val → b.toNat = q.val → ∃ t, exec (.compare a b) s = .next t ∧
    ((s.reg p).toNat = (s.reg q).toNat ↔ t.fl = defaultFlags.equal) ∧
    ((s.reg p).toNat > (s.reg q).toNat ↔ t.fl = defaultFlags.greater) ∧
    ((s.reg p).toNat < (s.reg q).toNat ↔ t.fl = defaultFlags.less)) ∧
  (∀ (a : Byte) (s : State) (d : RegIdx), a.toNat = d.val →
    ∃ t u v, exec (.jumpEqual a) s = .next t ∧ exec (.jumpNotEqual a) s = .next u ∧ exec (.jump a) s = .next v ∧
      (s.fl = defaultFlags.equal → t.pc = s.reg d ∧ u.pc.toNat = (s.pc.toNat + 2) % 256) ∧
      (s.fl = 0x00 ∨ s.fl = defaultFlags.greater ∨ s.fl = defaultFlags.less →
        t.pc.toNat = (s.pc.toNat + 2) % 256 ∧ u.pc = s.reg d) ∧
      v.pc = s.reg d ∧
      Keeps s t [] [] ∧ t.fl = s.fl ∧ t.mode = s.mode ∧ t.faultCause = s.faultCause ∧ t.out = s.out ∧
      Keeps s u [] [] ∧ u.fl = s.fl ∧ u.mode = s.mode ∧ u.faultCause = s.faultCause ∧ u.out = s.out)

/-- JUMP_EQUAL and JUMP_NOT_EQUAL test the whole register `fl` and are exact complements in EVERY state (rules R131, R133), not only
where `fl` holds one of its four values. -/
def Obligations.ConditionalJumpsAreComplements : Prop :=
  ∀ (a : Byte) (s : State) (d : RegIdx), a.toNat = d.val →
    ∃ t u, exec (.jumpEqual a) s = .next t ∧ exec (.jumpNotEqual a) s = .next u ∧
      (s.fl = defaultFlags.equal ∧ t.pc = s.reg d ∧ u.pc.toNat = (s.pc.toNat + 2) % 256 ∨
        s.fl ≠ defaultFlags.equal ∧ t.pc.toNat = (s.pc.toNat + 2) % 256 ∧ u.pc = s.reg d)

/-! ### Exceptions -/

/-- Every instruction answers a next state in every state (R12): with its register operands in range it raises nothing, and `mode`
changes only by HALT; with a register operand above 7 it takes InvalidRegisterIndex, before any write, a conditional jump whether
taken or not (rules R162, R163). The exception is the spec's decisions D4 and D7 (log 4, log 7). -/
def Obligations.InstructionsFaultExactlyOnABadRegisterIndex : Prop :=
  ∀ (i : Instr) (s : State), ∃ t, exec i s = .next t ∧
    (i.WellFormed → t.mode = (if i = .halt then .halted else s.mode) ∧ t.faultCause = s.faultCause) ∧
    (¬ i.WellFormed → TakesInvalidRegisterIndex s t)

/-- With two register operands out of range the first is the reported one, and a good first operand does not hide a bad second
(rule R168; the spec's decision D7, log 7). -/
def Obligations.FirstBadOperandIsReported : Prop :=
  ∀ a b : Byte,
    (7 < a.toNat → checkRegs a b = .error (.invalidRegisterIndex a)) ∧
    (a.toNat ≤ 7 → 7 < b.toNat → checkRegs a b = .error (.invalidRegisterIndex b)) ∧
    (∀ d r : RegIdx, a.toNat = d.val → b.toNat = r.val → checkRegs a b = .ok (d, r))

/-- The ALU supports ADD and MULTIPLY and reports UnsupportedOperation, cause 1, for any other code (rules R100, R161; the set is the
spec's decision D8, log 8). -/
def Obligations.AluSupportsExactlyAddAndMultiply : Prop :=
  ∀ (op : AluOp) (d r : RegIdx) (s : State),
    ((∃ t, alu op d r s = .ok t) ↔ op = .add ∨ op = .multiply) ∧
    (∀ t, alu op d r s = .ok t → Keeps s t [d] [] ∧
      (op = .add → (t.reg d).toNat = ((s.reg d).toNat + (s.reg r).toNat) % 256) ∧
      (op = .multiply → (t.reg d).toNat = ((s.reg d).toNat * (s.reg r).toNat) % 256)) ∧
    (∀ e, alu op d r s = .error e → e = .unsupportedOperation op ∧ e.cause.code = 1)

/-- A step leads to FAULTED exactly when the fetched bytes are an instruction with a bad register index, and the fault is precise:
nothing but `mode` and the cause changes (rules R161, R162, R163; decisions D4, D7, log 4, log 7). -/
def Obligations.StepFaultsExactlyOnABadRegisterIndex : Prop :=
  ∀ (c : Params) (s t : State), stepWith c s = .next t →
    (t.mode = .faulted ↔ ∃ i, decodeWith c.opcodes s.fetch = .instr i ∧ ¬ i.WellFormed) ∧
    (t.mode = .faulted → TakesInvalidRegisterIndex s t)

/-- The loop has no exit but HALT and a fault (rule R86): a step ends in HALTED exactly when the byte at `pc` is the HALT opcode, and
otherwise stays in RUNNING or faults. The run states' names are decision D6 (log 6). -/
def Obligations.StepHaltsExactlyOnTheHaltByte : Prop :=
  ∀ c : Params, c.opcodes.Distinct → ∀ s t : State, stepWith c s = .next t →
    (t.mode = .halted ↔ s.memRead s.pc = c.opcodes.byte .halt) ∧
    (t.mode = .running ∨ t.mode = .halted ∨ t.mode = .faulted)

/-! ### Rules over all instructions -/

/-- "Mutated only by the compare instruction" (rule R27): every other instruction, its exceptions included, keeps `fl`, and so does the
undefined-opcode no-op. -/
def Obligations.OnlyCompareWritesFlags : Prop :=
  ∀ (c : Params) (s t : State), stepWith c s = .next t → t.fl ≠ s.fl →
    ∃ a b, decodeWith c.opcodes s.fetch = .instr (.compare a b) ∧ a.toNat ≤ 7 ∧ b.toNat ≤ 7

/-- "consumed only by conditional-jump instructions" (rule R27): two runs of any other instruction from states that differ in `fl` alone
end in states that differ at most in `fl`. -/
def Obligations.OnlyConditionalJumpsReadFlags : Prop :=
  ∀ (i : Instr) (s t : State) (f : Byte), (∀ a, i ≠ .jumpEqual a ∧ i ≠ .jumpNotEqual a) → exec i s = .next t →
    ∃ t', exec i (s.setFl f) = .next t' ∧ t'.setFl t.fl = t

/-- The "writes" column of R21 (which the spec marks as derived), for every instruction and its exceptions: no other register
changes. -/
def Obligations.OnlyTheListedRegistersAreWritten : Prop :=
  ∀ (i : Instr) (s t : State), exec i s = .next t → ∀ k : RegIdx, ¬ WritesReg i k → t.reg k = s.reg k

/-- The "reads" column of R21 (which the spec marks as derived): two runs of an instruction from states that differ only in a register it
does not read end in states that differ at most in that register. -/
def Obligations.OnlyTheListedRegistersAreRead : Prop :=
  ∀ (i : Instr) (s t : State) (k : RegIdx) (v : Byte), ¬ ReadsReg i s k → exec i s = .next t →
    ∃ t', exec i (s.setReg k v) = .next t' ∧ t'.setReg k (t.reg k) = t

/-- The data accesses of R50 (which the spec marks as derived): only PUSH and CALL store, one byte, at `(sp - 1) mod 256`; for every other
instruction, and for the exceptions of all of them, memory is the same. -/
def Obligations.OnlyPushAndCallStore : Prop :=
  ∀ (i : Instr) (s t : State), exec i s = .next t →
    (∀ x : Byte, x ≠ s.pushAddress → t.memRead x = s.memRead x) ∧
    ((∀ a, i ≠ .push a ∧ i ≠ .call a) ∨ ¬ i.WellFormed → t.mem = s.mem)

/-- Only PRINT_REG has output, one value appended at the end (rules R92, R93, R146; the history is kept by decision D11, log 11). -/
def Obligations.OnlyPrintRegEmits : Prop :=
  ∀ (i : Instr) (s t : State), exec i s = .next t →
    (∃ a, ∃ d : RegIdx, i = .printReg a ∧ a.toNat = d.val ∧ t.out = s.out ++ [s.reg d]) ∨
    ((∀ a, i = .printReg a → 7 < a.toNat) ∧ t.out = s.out)

/-- The advance of `pc` (rule R83, with R120, R121, R131 to R133 for the values it is set to) for each instruction that raises
nothing: +3, +2 by the list, modulo 256; CALL, RETURN, JUMP and the taken conditional jumps set it; HALT does not change it (the
spec's decision D5, log 5). That CALL reads its register after `sp` was decremented, so in `t`, is the spec's decision D12
(log 12). -/
def Obligations.PcAdvancesByOnePlusOperandCount : Prop :=
  ∀ (i : Instr) (s t : State), i.WellFormed → exec i s = .next t →
    match i with
    | .halt => t.pc = s.pc
    | .loadImmediate _ _ => t.pc.toNat = (s.pc.toNat + 3) % 256
    | .printReg _ => t.pc.toNat = (s.pc.toNat + 2) % 256
    | .add _ _ => t.pc.toNat = (s.pc.toNat + 3) % 256
    | .multiply _ _ => t.pc.toNat = (s.pc.toNat + 3) % 256
    | .push _ => t.pc.toNat = (s.pc.toNat + 2) % 256
    | .pop _ => t.pc.toNat = (s.pc.toNat + 2) % 256
    | .call a => ∃ d : RegIdx, a.toNat = d.val ∧ t.pc = t.reg d
    | .ret => t.pc = s.memRead s.sp
    | .compare _ _ => t.pc.toNat = (s.pc.toNat + 3) % 256
    | .jumpEqual a =>
      if s.fl = defaultFlags.equal then ∃ d : RegIdx, a.toNat = d.val ∧ t.pc = s.reg d
      else t.pc.toNat = (s.pc.toNat + 2) % 256
    | .jump a => ∃ d : RegIdx, a.toNat = d.val ∧ t.pc = s.reg d
    | .jumpNotEqual a =>
      if s.fl = defaultFlags.equal then t.pc.toNat = (s.pc.toNat + 2) % 256
      else ∃ d : RegIdx, a.toNat = d.val ∧ t.pc = s.reg d

/-! ### Stack and subroutine laws -/

/-- "PUSH then POP on the same register round-trips the value unchanged and restores sp" (rule R112, in part marked as derived; register
7 through decision D12, log 12): every register is as before, the pushed byte stays below `sp`, `pc` is 4 further, no other
cell changes. -/
def Obligations.PushThenPopRoundTrips : Prop :=
  ∀ (a : Byte) (s : State) (d : RegIdx), a.toNat = d.val →
    ∃ t u, exec (.push a) s = .next t ∧ exec (.pop a) t = .next u ∧ (∀ k, u.reg k = s.reg k) ∧ u.sp = s.sp ∧
      u.memRead s.pushAddress = (if d = 7 then s.pushAddress else s.reg d) ∧
      (∀ x : Byte, x ≠ s.pushAddress → u.memRead x = s.memRead x) ∧ u.pc.toNat = (s.pc.toNat + 4) % 256

/-- The stack is last-in first-out (rule R112's last law): pushing two registers and popping them in the same order swaps them. -/
def Obligations.TwoPushesAndTwoPopsSwap : Prop :=
  ∀ (a b : Byte) (s : State) (d r : RegIdx), a.toNat = d.val → b.toNat = r.val → d ≠ r → d ≠ 7 → r ≠ 7 →
    ∃ s1 s2 s3 s4, exec (.push a) s = .next s1 ∧ exec (.push b) s1 = .next s2 ∧ exec (.pop a) s2 = .next s3 ∧
      exec (.pop b) s3 = .next s4 ∧ s4.reg d = s.reg r ∧ s4.reg r = s.reg d ∧ s4.sp = s.sp ∧
      ∀ k, k ≠ d → k ≠ r → s4.reg k = s.reg k

/-- CALL, then any subroutine, then RETURN resumes at the call site + 2 with `sp` restored (rule R122, which the spec marks as derived):
whatever ran between left `sp` and the saved byte as they were just after the CALL. -/
def Obligations.CallThenReturnResumes : Prop :=
  ∀ (a : Byte) (s t u : State) (d : RegIdx), a.toNat = d.val → exec (.call a) s = .next t →
    u.sp = t.sp → u.memRead u.sp = t.memRead t.sp →
    ∃ v, exec .ret u = .next v ∧ v.pc.toNat = (s.pc.toNat + 2) % 256 ∧ v.sp = s.sp

/-- Instruction fetch is coherent with stores at once (rule R55, which the spec marks as derived): where PUSH or CALL stored to a cell
the next fetch reads, the fetched byte is the stored one. -/
def Obligations.StoredBytesAreFetchedAtOnce : Prop :=
  ∀ (a : Byte) (s : State) (d : RegIdx), a.toNat = d.val →
    (∃ t, exec (.push a) s = .next t ∧
      (t.pc = s.pushAddress → t.fetch.ir = if d = 7 then s.pushAddress else s.reg d) ∧
      (t.pc + 1 = s.pushAddress → t.fetch.a = if d = 7 then s.pushAddress else s.reg d) ∧
      (t.pc + 2 = s.pushAddress → t.fetch.b = if d = 7 then s.pushAddress else s.reg d)) ∧
    (∃ t, exec (.call a) s = .next t ∧
      (t.pc = s.pushAddress → t.fetch.ir = s.pc + 2) ∧
      (t.pc + 1 = s.pushAddress → t.fetch.a = s.pc + 2) ∧
      (t.pc + 2 = s.pushAddress → t.fetch.b = s.pc + 2))

/-! ### Invariants and histories -/

/-- The canonical form is one: two canonical memories that read the same at each of the 256 addresses are equal data (the model's
representation of R31, log 20). -/
def Obligations.CanonicalMemoriesThatReadAlikeAreEqual : Prop :=
  ∀ m n : Memory, m.wf → n.wf → (∀ x : Byte, m.read x = n.read x) → m = n

/-- The reset state has the invariant of Safety.lean, for every flag map. -/
def Obligations.InvariantHoldsAtReset : Prop := ∀ p : FlagMap, State.reset.Inv p

/-- Every step keeps the invariant, for every opcode map and flag map and from every state that has it: the memory stays canonical,
`fl` stays one of its four values (R27 (a)), a cause is recorded exactly in FAULTED (R29, R163), and UnsupportedOperation is never
recorded (R161). -/
def Obligations.StepKeepsTheInvariant : Prop :=
  ∀ (c : Params) (s t : State), s.Inv c.flags → stepWith c s = .next t → t.Inv c.flags

/-- Every host move that is performed keeps the invariant (rules R142, R144, R152, R180; decisions D6, D10, D15, D16). -/
def Obligations.HostMovesKeepTheInvariant : Prop :=
  ∀ (p : FlagMap) (mv : HostMove) (s t : State), s.Inv p → hostMove mv s = .ok t → t.Inv p

/-- Whatever the host does and whatever program runs, every state of a history from reset has the invariant; so no instruction stream
raises UnsupportedOperation (rule R161). -/
def Obligations.ReachableStatesHaveTheInvariant : Prop :=
  ∀ (c : Params) (s : State), Reachable c s → s.Inv c.flags

/-- R28's table of transitions, "and there are no others", over the steps of the engine and all host moves. The four run states are
the spec's decision D6 (log 6). -/
def Obligations.RunStateTransitions : Prop :=
  ∀ (c : Params) (e : Event) (s t : State), Happens c e s t →
    (e = .host .reset ∧ t.mode = .notStarted) ∨
    (e = .host .run ∧ s.mode = .notStarted ∧ t.mode = .running) ∨
    (e = .step ∧ s.mode = .running ∧ (t.mode = .running ∨ t.mode = .halted ∨ t.mode = .faulted)) ∨
    (t.mode = s.mode ∧ ((∃ bytes, e = .host (.load bytes) ∧ s.mode = .notStarted) ∨
      ∃ address value, e = .host (.writeMemory address value) ∧ s.mode ≠ .running))

/-- HALTED and FAULTED are terminal: until reset nothing changes but a cell the host itself writes. R28 says that "no state element
changes until reset", and R152 that a host write there changes memory: reading R28 as said of the engine, so that R152's write
stands beside it, is the MODEL's reading (DEDUCED, log 21). It rests also on the spec's decisions D6 and D16 (log 6, log 16). -/
def Obligations.StoppedCoreIsFrozenUntilReset : Prop :=
  ∀ (c : Params) (e : Event) (s t : State), s.mode = .halted ∨ s.mode = .faulted → Happens c e s t →
    e = .host .reset ∨
    ∃ address value, e = .host (.writeMemory address value) ∧ (∀ k, t.reg k = s.reg k) ∧ t.pc = s.pc ∧ t.fl = s.fl ∧
      t.mode = s.mode ∧ t.faultCause = s.faultCause ∧ t.out = s.out ∧
      ∀ x : Byte, x.toNat ≠ address % 256 → t.memRead x = s.memRead x

/-! ### Host moves -/

/-- The load move (rule R142): in NOT_STARTED a stream of at most 256 bytes lands at addresses 0, 1, … and nothing else changes; a longer
one is refused, and so is any load in another run state. The limit and the refusals are the spec's decisions D10, D6 (log 10,
log 6). -/
def Obligations.LoadWritesTheStreamFromAddressZero : Prop :=
  ∀ (bytes : List Byte) (s : State),
    (s.mode = .notStarted → bytes.length ≤ 256 → ∃ t, hostLoad bytes s = .ok t ∧
      (∀ x : Byte, t.memRead x = if x.toNat < bytes.length then bytes.getD x.toNat 0 else s.memRead x) ∧
      (∀ k, t.reg k = s.reg k) ∧ t.pc = s.pc ∧ t.fl = s.fl ∧ t.mode = s.mode ∧ t.faultCause = s.faultCause ∧
      t.out = s.out) ∧
    (s.mode = .notStarted → 256 < bytes.length → hostLoad bytes s = .error (.streamTooLong bytes.length)) ∧
    (s.mode ≠ .notStarted → hostLoad bytes s = .error (.wrongMode s.mode))

/-- The run move (rule R144): from NOT_STARTED to RUNNING, changing nothing else; refused in every other run state (decision D6,
log 6). -/
def Obligations.RunStartsOnlyFromNotStarted : Prop :=
  ∀ s : State,
    (s.mode = .notStarted → ∃ t, hostRun s = .ok t ∧ t.mode = .running ∧ t.pc = s.pc ∧ Keeps s t [] [] ∧ t.fl = s.fl ∧
      t.faultCause = s.faultCause ∧ t.out = s.out) ∧
    (s.mode ≠ .notStarted → hostRun s = .error (.wrongMode s.mode))

/-- The host's memory primitives (rule R152): only while not RUNNING, the address and the value modulo 256, a written byte is read
back, every other cell and everything else unchanged (decisions D3, D16, log 3, log 16). -/
def Obligations.HostMemoryPrimitivesReduceModulo256 : Prop :=
  ∀ (address value : Nat) (s : State),
    (s.mode = .running → hostWriteMemory address value s = .error (.wrongMode .running) ∧
      hostReadMemory address s = .error (.wrongMode .running)) ∧
    (s.mode ≠ .running → ∃ t, hostWriteMemory address value s = .ok t ∧
      (∃ v, hostReadMemory address t = .ok v ∧ v.toNat = value % 256) ∧
      (∀ other, other % 256 ≠ address % 256 → hostReadMemory other t = hostReadMemory other s) ∧
      (∀ k, t.reg k = s.reg k) ∧ t.pc = s.pc ∧ t.fl = s.fl ∧ t.mode = s.mode ∧ t.faultCause = s.faultCause ∧
      t.out = s.out)

/-- The boot sequence (rules R35, R182): after reset, a load of at most 256 bytes that begins with the bytes of `i`, and the run move,
the machine is in the state R35 lists and its first step runs `i`. -/
def Obligations.BootRunsTheFirstLoadedInstruction : Prop :=
  ∀ c : Params, c.opcodes.Distinct → ∀ (i : Instr) (rest : List Byte), (encodeWith c.opcodes i ++ rest).length ≤ 256 →
    ∃ s t, hostLoad (encodeWith c.opcodes i ++ rest) State.reset = .ok s ∧ hostRun s = .ok t ∧
      stepWith c t = execWith c.flags i t ∧
      (∀ k : RegIdx, t.reg k = if k = 7 then 0xF4 else 0x00) ∧ t.pc = 0x00 ∧ t.fl = 0x00 ∧ t.mode = .running ∧
      t.faultCause = .none ∧ t.out = [] ∧
      ∀ x : Byte, t.memRead x = (encodeWith c.opcodes i ++ rest).getD x.toNat 0x00

/-- A run over memory that is all zero never ends (rules R86, R145): after any number k of steps `pc` is k further, modulo 256, and
nothing else has changed. It rests on the default opcode bytes, none of which is 0x00 (D1, D9; PRESUMED, log 1, log 9). -/
def Obligations.ZeroMemoryRunsForever : Prop :=
  ∀ (s : State) (k : Nat), s.mode = .running → (∀ x : Byte, s.memRead x = 0x00) →
    Sys2Proof.core.run k s = .next { s with pc := s.pc + BitVec.ofNat 8 k }

/-- The condition of the jumps after a COMPARE does not depend on the flag values (rule R7, in part marked as derived; D2): for any two
valid assignments it is the same, true exactly for equal operands, and it is false before the first COMPARE. -/
def Obligations.JumpConditionIgnoresTheFlagValues : Prop :=
  ∀ p q : FlagMap, p.Valid → q.Valid → ∀ u v : Byte,
    flagsEqual p (compareFlags p u v) = flagsEqual q (compareFlags q u v) ∧
    (flagsEqual p (compareFlags p u v) = true ↔ u = v) ∧ flagsEqual p 0x00 = false

/-- COMPARE, JUMP_EQUAL and JUMP_NOT_EQUAL in the machine with ANY valid flag map (rule R7, which the spec leaves a parameter, D2; with
R130, R131, R133): COMPARE leaves the parameter of its outcome and changes `fl` and `pc` alone; each conditional jump tests the whole
of `fl` against the parameter FL_EQUAL and changes `pc` alone; a register byte above 7 raises InvalidRegisterIndex whatever the
flag map (D4, log 4). -/
def Obligations.CompareAndBranchUnderEveryFlagMap : Prop :=
  ∀ p : FlagMap, p.Valid →
    (∀ (a b : Byte) (s : State) (d r : RegIdx), a.toNat = d.val → b.toNat = r.val →
      ∃ t, execWith p (.compare a b) s = .next t ∧
        ((s.reg d).toNat < (s.reg r).toNat ↔ t.fl = p.less) ∧ ((s.reg d).toNat > (s.reg r).toNat ↔ t.fl = p.greater) ∧
        ((s.reg d).toNat = (s.reg r).toNat ↔ t.fl = p.equal) ∧ t.fl.toNat / 8 = 0 ∧
        t.pc.toNat = (s.pc.toNat + 3) % 256 ∧ Keeps s t [] [] ∧ t.mode = s.mode ∧ t.faultCause = s.faultCause ∧
        t.out = s.out) ∧
    (∀ (a : Byte) (s : State) (d : RegIdx), a.toNat = d.val →
      ∃ t u, execWith p (.jumpEqual a) s = .next t ∧ execWith p (.jumpNotEqual a) s = .next u ∧
        (s.fl = p.equal → t.pc = s.reg d ∧ u.pc.toNat = (s.pc.toNat + 2) % 256) ∧
        (s.fl ≠ p.equal → t.pc.toNat = (s.pc.toNat + 2) % 256 ∧ u.pc = s.reg d) ∧
        Keeps s t [] [] ∧ t.fl = s.fl ∧ t.mode = s.mode ∧ t.faultCause = s.faultCause ∧ t.out = s.out ∧
        Keeps s u [] [] ∧ u.fl = s.fl ∧ u.mode = s.mode ∧ u.faultCause = s.faultCause ∧ u.out = s.out) ∧
    ∀ (i : Instr) (s : State), ¬ i.WellFormed → ∃ t, execWith p i s = .next t ∧ TakesInvalidRegisterIndex s t

/-- No program can observe which flag assignment was taken (rule R7, in part marked as derived; D2): the machines with two valid flag
maps start alike, and from states that agree but for the coding of `fl` a step of one is matched by a step of the other, again
into such states; so registers, `pc`, run state, memory and every output stay the same at every step, and the trace views differ
at most in the flags byte (that the view shows it is the model's choice, log 22). -/
def Obligations.FlagAssignmentIsUnobservable : Prop :=
  ∀ (m : OpcodeMap) (p q : FlagMap), p.Valid → q.Valid →
    AgreeButForFlagCoding p q State.reset State.reset ∧
    ∀ s t : State, AgreeButForFlagCoding p q s t →
      { t.trace with fl := s.trace.fl } = s.trace ∧
      (∀ s', stepWith ⟨m, p⟩ s = .next s' → ∃ t', stepWith ⟨m, q⟩ t = .next t' ∧ AgreeButForFlagCoding p q s' t') ∧
      (∀ r, stepWith ⟨m, p⟩ s = .fault r → stepWith ⟨m, q⟩ t = .fault r)

/-- `exec` and `step` are the machine with the default parameters, and the instructions that neither write nor test a flag value mean the
same under every flag map (rule R7; PRESUMED defaults, log 1, log 2). -/
def Obligations.ExecIsTheDefaultMachine : Prop :=
  ∀ (i : Instr) (s : State),
    execWith defaultFlags i s = exec i s ∧ step s = stepWith defaultParams s ∧ defaultParams.Legal ∧
    ∀ p : FlagMap, (∀ a b, i ≠ .compare a b) → (∀ a, i ≠ .jumpEqual a ∧ i ≠ .jumpNotEqual a) → execWith p i s = exec i s

/-- Placing a table word where the step fetches makes the next step run exactly the instruction the decoder reads from it, from any
state, and changes only the three fetched cells and the run state (the model's stand-in for load and run, DESIGN CHOICE, log 18). -/
def Obligations.PlacedWordIsTheNextInstruction : Prop :=
  ∀ (s : State) (nbits w : Nat) (i : Instr), decodeTableWord nbits w = some i →
    step (s.withFetchWord nbits w) = exec i (s.withFetchWord nbits w) ∧
    Keeps s (s.withFetchWord nbits w) [] [s.pc, s.pc + 1, s.pc + 2] ∧ (s.withFetchWord nbits w).pc = s.pc ∧
    (s.withFetchWord nbits w).fl = s.fl ∧ (s.withFetchWord nbits w).faultCause = s.faultCause ∧
    (s.withFetchWord nbits w).out = s.out
end

