-- ==== Sys2Proof/Laws/Decode.lean ====
section
/-! SUPPORT. What the lookup in the opcode map and the assembling of operands do. -/

namespace Sys2Proof

theorem Opcode.mem_all (op : Opcode) : op ∈ Opcode.all := by cases op <;> decide

theorem defaultOpcodes_distinct : defaultOpcodes.Distinct := by decide

/-- Distinct opcode bytes name at most one row. -/
theorem OpcodeMap.byte_inj {m : OpcodeMap} (h : m.Distinct) {p q : Opcode} (he : m.byte p = m.byte q) : p = q :=
  List.inj_on_of_nodup_map h (Opcode.mem_all p) (Opcode.mem_all q) he

theorem OpcodeMap.byte_of_lookup {m : OpcodeMap} {ir : Byte} {op : Opcode} (h : m.lookup ir = some op) : m.byte op = ir := by
  simpa using List.find?_some h

theorem OpcodeMap.lookup_byte {m : OpcodeMap} (h : m.Distinct) (op : Opcode) : m.lookup (m.byte op) = some op := by
  rcases hl : m.lookup (m.byte op) with _ | q
  · have := List.find?_eq_none.1 hl op (Opcode.mem_all op)
    simp at this
  · rw [m.byte_inj h (m.byte_of_lookup hl)]

theorem OpcodeMap.lookup_eq_none {m : OpcodeMap} {ir : Byte} : m.lookup ir = none ↔ ∀ op, m.byte op ≠ ir := by
  simp [OpcodeMap.lookup, Opcode.mem_all]

@[simp] theorem assemble_opcode (op : Opcode) (a b : Byte) : (assemble op a b).opcode = op := by cases op <;> rfl

theorem decodeWith_of_lookup {m : OpcodeMap} {w : Fetched} {op : Opcode} (h : m.lookup w.ir = some op) :
    decodeWith m w = .instr (assemble op w.a w.b) := by
  simp [decodeWith, h]

theorem decodeWith_undefined {m : OpcodeMap} {w : Fetched} (h : ∀ op, m.byte op ≠ w.ir) :
    decodeWith m w = .undefinedOpcode w.ir := by
  simp [decodeWith, OpcodeMap.lookup_eq_none.2 h]

/-- What the decoder can answer: the row whose byte is IR, with the fetched operand bytes, or the undefined opcode. -/
theorem decodeWith_cases (m : OpcodeMap) (w : Fetched) :
    (∃ op, m.byte op = w.ir ∧ decodeWith m w = .instr (assemble op w.a w.b)) ∨
    ((∀ op, m.byte op ≠ w.ir) ∧ decodeWith m w = .undefinedOpcode w.ir) := by
  rcases h : m.lookup w.ir with _ | op
  · exact .inr ⟨OpcodeMap.lookup_eq_none.1 h, decodeWith_undefined (OpcodeMap.lookup_eq_none.1 h)⟩
  · exact .inl ⟨op, OpcodeMap.byte_of_lookup h, decodeWith_of_lookup h⟩

/-- An encoding is the opcode byte and then the operand bytes. -/
theorem encodeWith_eq (m : OpcodeMap) (i : Instr) : encodeWith m i = m.byte i.opcode :: i.operands := by cases i <;> rfl

theorem operands_length (i : Instr) : i.operands.length = i.opcode.operandCount := by cases i <;> rfl

/-- Assembling an instruction's own operand bytes, whatever stands after them, gives the instruction. -/
theorem assemble_operands (i : Instr) (a b : Byte) :
    assemble i.opcode ((i.operands ++ [a, b]).getD 0 0) ((i.operands ++ [a, b]).getD 1 0) = i := by
  cases i <;> rfl

end Sys2Proof
end

