-- ==== Sys2Proof/Laws/Flags.lean ====
section
/-! SUPPORT. Everything the comparator and the jump condition can do. -/

namespace Sys2Proof.Machine

theorem compareFlags_less (p : FlagMap) {u v : Byte} (h : u.toNat < v.toNat) : compareFlags p u v = p.less := by
  simp [compareFlags, h]

theorem compareFlags_greater (p : FlagMap) {u v : Byte} (h : v.toNat < u.toNat) : compareFlags p u v = p.greater := by
  simp [compareFlags, h, Nat.not_lt.2 h.le]

@[simp] theorem compareFlags_self (p : FlagMap) (u : Byte) : compareFlags p u u = p.equal := by
  simp [compareFlags]

/-- The comparator answers one of the three values, by the order of the operands. -/
theorem compareFlags_cases (p : FlagMap) (u v : Byte) :
    (u.toNat < v.toNat ∧ compareFlags p u v = p.less) ∨ (v.toNat < u.toNat ∧ compareFlags p u v = p.greater) ∨
    (u = v ∧ compareFlags p u v = p.equal) := by
  rcases lt_trichotomy u.toNat v.toNat with h | h | h
  · exact .inl ⟨h, compareFlags_less p h⟩
  · have := BitVec.eq_of_toNat_eq h
    subst this
    exact .inr (.inr ⟨rfl, compareFlags_self p u⟩)
  · exact .inr (.inl ⟨h, compareFlags_greater p h⟩)

@[simp] theorem flagsEqual_iff (p : FlagMap) (fl : Byte) : flagsEqual p fl = true ↔ fl = p.equal := by
  simp [flagsEqual]

theorem flagsLegal_compareFlags (p : FlagMap) (u v : Byte) : flagsLegal p (compareFlags p u v) = true := by
  rcases compareFlags_cases p u v with ⟨-, h⟩ | ⟨-, h⟩ | ⟨-, h⟩ <;> simp [flagsLegal, h]

theorem defaultFlags_valid : defaultFlags.Valid := by decide

end Sys2Proof.Machine
end

