-- ==== Sys2Proof/Laws/Memory.lean ====
section
/-! SUPPORT. The laws of memory: a read after a write, the cells a write leaves alone, and the canonical form every write keeps. -/

namespace Sys2Proof.Machine

/-! ### One cell -/

@[simp] theorem Memory.readAt_nil (a : Nat) : Memory.readAt [] a = Memory.unlisted := rfl

theorem Memory.readAt_cons (k : Nat) (v : Byte) (m : Memory) (a : Nat) :
    Memory.readAt ((k, v) :: m) a = if k = a then v else Memory.readAt m a := rfl

theorem Memory.readAt_filter (m : Memory) (a x : Nat) :
    Memory.readAt (m.filter fun c => c.1 != a) x = if x = a then Memory.unlisted else Memory.readAt m x := by
  induction m with
  | nil => simp
  | cons c m ih =>
    obtain ⟨k, v⟩ := c
    by_cases hk : k = a
    · subst hk
      have : ((k, v) :: m).filter (fun c => c.1 != k) = m.filter fun c => c.1 != k := by simp
      rw [this, ih, Memory.readAt_cons]
      by_cases hx : x = k
      · simp [hx]
      · simp [hx, Ne.symm hx]
    · have : ((k, v) :: m).filter (fun c => c.1 != a) = (k, v) :: m.filter fun c => c.1 != a := by simp [hk]
      rw [this, Memory.readAt_cons, Memory.readAt_cons, ih]
      by_cases hx : k = x
      · subst hx; simp [hk]
      · simp [hx]

theorem Memory.readAt_insertCell (m : Memory) (a x : Nat) (v : Byte) (h : ∀ c ∈ m, c.1 ≠ a) :
    Memory.readAt (Memory.insertCell (a, v) m) x = if x = a then v else Memory.readAt m x := by
  induction m with
  | nil => simp [Memory.insertCell, Memory.readAt, eq_comm]
  | cons c m ih =>
    obtain ⟨k, u⟩ := c
    have hk : k ≠ a := h _ (List.mem_cons_self ..)
    unfold Memory.insertCell
    split
    · rw [Memory.readAt_cons]; simp only [eq_comm]
    · rw [Memory.readAt_cons, Memory.readAt_cons, ih fun c hc => h c (List.mem_cons_of_mem _ hc)]
      by_cases hx : k = x
      · subst hx; simp [hk]
      · simp [hx]

/-- A write is read back, and every other numeric address reads as before: for every list, canonical or not. -/
theorem Memory.readAt_writeAt (m : Memory) (a x : Nat) (v : Byte) :
    (m.writeAt a v).readAt x = if x = a then v else m.readAt x := by
  unfold Memory.writeAt
  split
  · rename_i hv; rw [Memory.readAt_filter, hv]
  · rw [Memory.readAt_insertCell, Memory.readAt_filter]
    · split <;> rfl
    · simp

theorem Memory.read_write (m : Memory) (a x v : Byte) : (m.write a v).read x = if x = a then v else m.read x := by
  simp only [Memory.read, Memory.write, Memory.readAt_writeAt, BitVec.toNat_inj]

@[simp] theorem Memory.read_write_same (m : Memory) (a v : Byte) : (m.write a v).read a = v := by
  simp [Memory.read_write]

theorem Memory.read_write_ne (m : Memory) {a x : Byte} (h : x ≠ a) (v : Byte) : (m.write a v).read x = m.read x := by
  simp [Memory.read_write, h]

@[simp] theorem Memory.read_nil (a : Byte) : Memory.read [] a = 0 := rfl

theorem State.memRead_memWrite (s : State) (a x v : Byte) :
    (s.memWrite a v).memRead x = if x = a then v else s.memRead x :=
  Memory.read_write s.mem a x v

@[simp] theorem State.memRead_memWrite_same (s : State) (a v : Byte) : (s.memWrite a v).memRead a = v :=
  Memory.read_write_same s.mem a v

theorem State.memRead_memWrite_ne (s : State) {a x : Byte} (h : x ≠ a) (v : Byte) :
    (s.memWrite a v).memRead x = s.memRead x :=
  Memory.read_write_ne s.mem h v

/-! ### Byte strings -/

/-- The bytes of a string of at most 256 land at consecutive addresses, and no other cell changes: the address is inside the
stored range when its distance from the start is below the length. -/
theorem Memory.read_writeBytes (m : Memory) (a x : Byte) (bs : List Byte) (h : bs.length ≤ 256) :
    (m.writeBytes a bs).read x = if (x - a).toNat < bs.length then bs.getD (x - a).toNat 0 else m.read x := by
  induction bs generalizing m a with
  | nil => simp [Memory.writeBytes]
  | cons v bs ih =>
    simp only [List.length_cons] at h
    rw [Memory.writeBytes, ih _ _ (by omega), Memory.read_write]
    by_cases hx : x = a
    · subst hx
      have : (x - (x + 1)).toNat = 255 := by
        have : x - (x + 1) = 255#8 := by bv_omega
        rw [this]; rfl
      rw [this, if_neg (by omega), if_pos rfl]
      simp
    · have hd : (x - a).toNat = (x - (a + 1)).toNat + 1 := by bv_omega
      simp [hx, hd]

/-! ### The canonical form -/

theorem Memory.mem_insertCell (c d : Host.Cell) (m : Memory) : d ∈ Memory.insertCell c m ↔ d = c ∨ d ∈ m := by
  induction m with
  | nil => simp [Memory.insertCell]
  | cons e m ih =>
    unfold Memory.insertCell
    split
    · simp
    · simp only [List.mem_cons, ih]; tauto

theorem Memory.sorted_insertCell (c : Host.Cell) (m : Memory) (hs : m.Pairwise fun c d => c.1 < d.1)
    (hne : ∀ d ∈ m, d.1 ≠ c.1) : (Memory.insertCell c m).Pairwise fun c d => c.1 < d.1 := by
  induction m with
  | nil => simp [Memory.insertCell]
  | cons e m ih =>
    rw [List.pairwise_cons] at hs
    have he := hne e (List.mem_cons_self ..)
    unfold Memory.insertCell
    split
    · rename_i hlt
      rw [List.pairwise_cons, List.pairwise_cons]
      refine ⟨fun d hd => ?_, hs⟩
      rcases List.mem_cons.1 hd with rfl | hd
      · exact hlt
      · exact lt_trans hlt (hs.1 d hd)
    · rw [List.pairwise_cons]
      refine ⟨fun d hd => ?_, ih hs.2 fun d hd => hne d (List.mem_cons_of_mem _ hd)⟩
      rcases (Memory.mem_insertCell ..).1 hd with rfl | hd
      · omega
      · exact hs.1 d hd

@[simp] theorem Memory.wf_nil : Memory.wf [] := by simp [Memory.wf]

/-- A write inside the address space keeps the canonical form. -/
theorem Memory.wf_writeAt {m : Memory} (h : m.wf) {a : Nat} (ha : a < Config.memSize) (v : Byte) : (m.writeAt a v).wf := by
  have hf : Memory.wf (m.filter fun c => c.1 != a) :=
    ⟨h.1.filter _, fun c hc => h.2 c (List.mem_filter.1 hc).1⟩
  unfold Memory.writeAt
  split
  · exact hf
  · rename_i hv
    refine ⟨Memory.sorted_insertCell _ _ hf.1 fun d hd => by simpa using (List.mem_filter.1 hd).2, fun c hc => ?_⟩
    rcases (Memory.mem_insertCell ..).1 hc with rfl | hc
    · exact ⟨ha, hv⟩
    · exact hf.2 c hc

theorem Memory.wf_write {m : Memory} (h : m.wf) (a v : Byte) : (m.write a v).wf :=
  Memory.wf_writeAt h (by simpa [Config.memSize] using a.isLt) v

theorem Memory.wf_writeBytes {m : Memory} (h : m.wf) (a : Byte) (bs : List Byte) : (m.writeBytes a bs).wf := by
  induction bs generalizing m a with
  | nil => exact h
  | cons v bs ih => exact ih (Memory.wf_write h a v) _

theorem Memory.wf_reset : State.reset.mem.wf := Memory.wf_nil

end Sys2Proof.Machine
end

