-- ==== Sys2Proof/Laws/Operands.lean ====
section
/-! SUPPORT. Everything the checked use of register operands can do. -/

namespace Sys2Proof.Machine

theorem checkReg_ok {k : Byte} {d : RegIdx} (h : k.toNat = d.val) : checkReg k = .ok d := by
  have hk : k.toNat < 8 := h ▸ d.isLt
  simp only [checkReg, hk, dif_pos, Except.ok.injEq]
  exact Fin.ext h

theorem checkReg_error {k : Byte} (h : 7 < k.toNat) : checkReg k = .error (.invalidRegisterIndex k) := by
  simp [checkReg, Nat.not_lt.2 h]

/-- A byte names a register or is above 7. -/
theorem regByte_cases (k : Byte) : (∃ d : RegIdx, k.toNat = d.val) ∨ 7 < k.toNat := by
  by_cases h : k.toNat < 8
  · exact .inl ⟨⟨k.toNat, h⟩, rfl⟩
  · exact .inr (by omega)

theorem checkRegs_ok {a b : Byte} {d r : RegIdx} (ha : a.toNat = d.val) (hb : b.toNat = r.val) :
    checkRegs a b = .ok (d, r) := by
  simp [checkRegs, checkReg_ok ha, checkReg_ok hb]

theorem checkRegs_error_left {a b : Byte} (ha : 7 < a.toNat) : checkRegs a b = .error (.invalidRegisterIndex a) := by
  simp [checkRegs, checkReg_error ha]

theorem checkRegs_error_right {a b : Byte} {d : RegIdx} (ha : a.toNat = d.val) (hb : 7 < b.toNat) :
    checkRegs a b = .error (.invalidRegisterIndex b) := by
  simp [checkRegs, checkReg_ok ha, checkReg_error hb]

theorem withReg_ok {a : Byte} {d : RegIdx} (h : a.toNat = d.val) (s : State) (body : RegIdx → Result) :
    withReg a s body = body d := by
  simp [withReg, checkReg_ok h]

theorem withReg_error {a : Byte} (h : 7 < a.toNat) (s : State) (body : RegIdx → Result) :
    withReg a s body = .next (s.enterFault (.invalidRegisterIndex a)) := by
  simp [withReg, checkReg_error h, raiseExn]

theorem withRegs_ok {a b : Byte} {d r : RegIdx} (ha : a.toNat = d.val) (hb : b.toNat = r.val) (s : State)
    (body : RegIdx → RegIdx → Result) : withRegs a b s body = body d r := by
  simp [withRegs, checkRegs_ok ha hb]

theorem withRegs_error_left {a b : Byte} (ha : 7 < a.toNat) (s : State) (body : RegIdx → RegIdx → Result) :
    withRegs a b s body = .next (s.enterFault (.invalidRegisterIndex a)) := by
  simp [withRegs, checkRegs_error_left ha, raiseExn]

theorem withRegs_error_right {a b : Byte} {d : RegIdx} (ha : a.toNat = d.val) (hb : 7 < b.toNat) (s : State)
    (body : RegIdx → RegIdx → Result) : withRegs a b s body = .next (s.enterFault (.invalidRegisterIndex b)) := by
  simp [withRegs, checkRegs_error_right ha hb, raiseExn]

/-- One register operand: the body runs on the register it names, or InvalidRegisterIndex is taken; nothing else. -/
theorem withReg_next {a : Byte} {s t : State} {body : RegIdx → Result} (h : withReg a s body = .next t) :
    (∃ d : RegIdx, a.toNat = d.val ∧ body d = .next t) ∨
    (7 < a.toNat ∧ t = s.enterFault (.invalidRegisterIndex a)) := by
  rcases regByte_cases a with ⟨d, hd⟩ | ha
  · exact .inl ⟨d, hd, withReg_ok hd s body ▸ h⟩
  · rw [withReg_error ha] at h
    exact .inr ⟨ha, (Host.Outcome.next.inj h).symm⟩

/-- Two register operands: the body runs on the registers they name, or InvalidRegisterIndex is taken for the first bad one. -/
theorem withRegs_next {a b : Byte} {s t : State} {body : RegIdx → RegIdx → Result} (h : withRegs a b s body = .next t) :
    (∃ d r : RegIdx, a.toNat = d.val ∧ b.toNat = r.val ∧ body d r = .next t) ∨
    (∃ k, 7 < k.toNat ∧ (k = a ∨ k = b ∧ a.toNat ≤ 7) ∧ t = s.enterFault (.invalidRegisterIndex k)) := by
  rcases regByte_cases a with ⟨d, hd⟩ | ha
  · rcases regByte_cases b with ⟨r, hr⟩ | hb
    · exact .inl ⟨d, r, hd, hr, withRegs_ok hd hr s body ▸ h⟩
    · rw [withRegs_error_right hd hb] at h
      exact .inr ⟨b, hb, .inr ⟨rfl, by have := d.isLt; omega⟩, (Host.Outcome.next.inj h).symm⟩
  · rw [withRegs_error_left ha] at h
    exact .inr ⟨a, ha, .inl rfl, (Host.Outcome.next.inj h).symm⟩

end Sys2Proof.Machine
end

