-- ==== Sys2Proof/Laws/State.lean ====
section
/-! SUPPORT. What each named update of the state does to each field, and what the observers `reg`, `sp`, `memRead` and `fetch` see of
it. Every later proof cites these instead of unfolding a record update. -/

namespace Sys2Proof.Machine

variable (s : State)

/-! ### memWrite -/

@[simp] theorem State.memWrite_regs (a v : Byte) : (s.memWrite a v).regs = s.regs := rfl
@[simp] theorem State.memWrite_pc (a v : Byte) : (s.memWrite a v).pc = s.pc := rfl
@[simp] theorem State.memWrite_fl (a v : Byte) : (s.memWrite a v).fl = s.fl := rfl
@[simp] theorem State.memWrite_mode (a v : Byte) : (s.memWrite a v).mode = s.mode := rfl
@[simp] theorem State.memWrite_faultCause (a v : Byte) : (s.memWrite a v).faultCause = s.faultCause := rfl
@[simp] theorem State.memWrite_mem (a v : Byte) : (s.memWrite a v).mem = s.mem.write a v := rfl
@[simp] theorem State.memWrite_out (a v : Byte) : (s.memWrite a v).out = s.out := rfl
@[simp] theorem State.reg_memWrite (a v : Byte) (j : RegIdx) : (s.memWrite a v).reg j = s.reg j := rfl
@[simp] theorem State.sp_memWrite (a v : Byte) : (s.memWrite a v).sp = s.sp := rfl
@[simp] theorem State.pushAddress_memWrite (a v : Byte) : (s.memWrite a v).pushAddress = s.pushAddress := rfl

/-! ### setReg -/

@[simp] theorem State.setReg_regs (k : RegIdx) (v : Byte) : (s.setReg k v).regs = s.regs.set k.val v k.isLt := rfl
@[simp] theorem State.setReg_pc (k : RegIdx) (v : Byte) : (s.setReg k v).pc = s.pc := rfl
@[simp] theorem State.setReg_fl (k : RegIdx) (v : Byte) : (s.setReg k v).fl = s.fl := rfl
@[simp] theorem State.setReg_mode (k : RegIdx) (v : Byte) : (s.setReg k v).mode = s.mode := rfl
@[simp] theorem State.setReg_faultCause (k : RegIdx) (v : Byte) : (s.setReg k v).faultCause = s.faultCause := rfl
@[simp] theorem State.setReg_mem (k : RegIdx) (v : Byte) : (s.setReg k v).mem = s.mem := rfl
@[simp] theorem State.setReg_out (k : RegIdx) (v : Byte) : (s.setReg k v).out = s.out := rfl
@[simp] theorem State.memRead_setReg (k : RegIdx) (v : Byte) (x : Byte) : (s.setReg k v).memRead x = s.memRead x := rfl

/-! ### setSp -/

@[simp] theorem State.setSp_regs (v : Byte) : (s.setSp v).regs = s.regs.set Config.spIndex.val v Config.spIndex.isLt := rfl
@[simp] theorem State.setSp_pc (v : Byte) : (s.setSp v).pc = s.pc := rfl
@[simp] theorem State.setSp_fl (v : Byte) : (s.setSp v).fl = s.fl := rfl
@[simp] theorem State.setSp_mode (v : Byte) : (s.setSp v).mode = s.mode := rfl
@[simp] theorem State.setSp_faultCause (v : Byte) : (s.setSp v).faultCause = s.faultCause := rfl
@[simp] theorem State.setSp_mem (v : Byte) : (s.setSp v).mem = s.mem := rfl
@[simp] theorem State.setSp_out (v : Byte) : (s.setSp v).out = s.out := rfl
@[simp] theorem State.memRead_setSp (v : Byte) (x : Byte) : (s.setSp v).memRead x = s.memRead x := rfl

/-! ### advance -/

@[simp] theorem State.advance_regs (n : Byte) : (s.advance n).regs = s.regs := rfl
@[simp] theorem State.advance_pc (n : Byte) : (s.advance n).pc = s.pc + n := rfl
@[simp] theorem State.advance_fl (n : Byte) : (s.advance n).fl = s.fl := rfl
@[simp] theorem State.advance_mode (n : Byte) : (s.advance n).mode = s.mode := rfl
@[simp] theorem State.advance_faultCause (n : Byte) : (s.advance n).faultCause = s.faultCause := rfl
@[simp] theorem State.advance_mem (n : Byte) : (s.advance n).mem = s.mem := rfl
@[simp] theorem State.advance_out (n : Byte) : (s.advance n).out = s.out := rfl
@[simp] theorem State.reg_advance (n : Byte) (j : RegIdx) : (s.advance n).reg j = s.reg j := rfl
@[simp] theorem State.sp_advance (n : Byte) : (s.advance n).sp = s.sp := rfl
@[simp] theorem State.pushAddress_advance (n : Byte) : (s.advance n).pushAddress = s.pushAddress := rfl
@[simp] theorem State.memRead_advance (n : Byte) (x : Byte) : (s.advance n).memRead x = s.memRead x := rfl

/-! ### jumpTo -/

@[simp] theorem State.jumpTo_regs (v : Byte) : (s.jumpTo v).regs = s.regs := rfl
@[simp] theorem State.jumpTo_pc (v : Byte) : (s.jumpTo v).pc = v := rfl
@[simp] theorem State.jumpTo_fl (v : Byte) : (s.jumpTo v).fl = s.fl := rfl
@[simp] theorem State.jumpTo_mode (v : Byte) : (s.jumpTo v).mode = s.mode := rfl
@[simp] theorem State.jumpTo_faultCause (v : Byte) : (s.jumpTo v).faultCause = s.faultCause := rfl
@[simp] theorem State.jumpTo_mem (v : Byte) : (s.jumpTo v).mem = s.mem := rfl
@[simp] theorem State.jumpTo_out (v : Byte) : (s.jumpTo v).out = s.out := rfl
@[simp] theorem State.reg_jumpTo (v : Byte) (j : RegIdx) : (s.jumpTo v).reg j = s.reg j := rfl
@[simp] theorem State.sp_jumpTo (v : Byte) : (s.jumpTo v).sp = s.sp := rfl
@[simp] theorem State.pushAddress_jumpTo (v : Byte) : (s.jumpTo v).pushAddress = s.pushAddress := rfl
@[simp] theorem State.memRead_jumpTo (v : Byte) (x : Byte) : (s.jumpTo v).memRead x = s.memRead x := rfl

/-! ### setFl -/

@[simp] theorem State.setFl_regs (v : Byte) : (s.setFl v).regs = s.regs := rfl
@[simp] theorem State.setFl_pc (v : Byte) : (s.setFl v).pc = s.pc := rfl
@[simp] theorem State.setFl_fl (v : Byte) : (s.setFl v).fl = v := rfl
@[simp] theorem State.setFl_mode (v : Byte) : (s.setFl v).mode = s.mode := rfl
@[simp] theorem State.setFl_faultCause (v : Byte) : (s.setFl v).faultCause = s.faultCause := rfl
@[simp] theorem State.setFl_mem (v : Byte) : (s.setFl v).mem = s.mem := rfl
@[simp] theorem State.setFl_out (v : Byte) : (s.setFl v).out = s.out := rfl
@[simp] theorem State.reg_setFl (v : Byte) (j : RegIdx) : (s.setFl v).reg j = s.reg j := rfl
@[simp] theorem State.sp_setFl (v : Byte) : (s.setFl v).sp = s.sp := rfl
@[simp] theorem State.pushAddress_setFl (v : Byte) : (s.setFl v).pushAddress = s.pushAddress := rfl
@[simp] theorem State.memRead_setFl (v : Byte) (x : Byte) : (s.setFl v).memRead x = s.memRead x := rfl

/-! ### emit -/

@[simp] theorem State.emit_regs (v : Byte) : (s.emit v).regs = s.regs := rfl
@[simp] theorem State.emit_pc (v : Byte) : (s.emit v).pc = s.pc := rfl
@[simp] theorem State.emit_fl (v : Byte) : (s.emit v).fl = s.fl := rfl
@[simp] theorem State.emit_mode (v : Byte) : (s.emit v).mode = s.mode := rfl
@[simp] theorem State.emit_faultCause (v : Byte) : (s.emit v).faultCause = s.faultCause := rfl
@[simp] theorem State.emit_mem (v : Byte) : (s.emit v).mem = s.mem := rfl
@[simp] theorem State.emit_out (v : Byte) : (s.emit v).out = s.out ++ [v] := rfl
@[simp] theorem State.reg_emit (v : Byte) (j : RegIdx) : (s.emit v).reg j = s.reg j := rfl
@[simp] theorem State.sp_emit (v : Byte) : (s.emit v).sp = s.sp := rfl
@[simp] theorem State.pushAddress_emit (v : Byte) : (s.emit v).pushAddress = s.pushAddress := rfl
@[simp] theorem State.memRead_emit (v : Byte) (x : Byte) : (s.emit v).memRead x = s.memRead x := rfl

/-! ### halt -/

@[simp] theorem State.halt_regs : (s.halt).regs = s.regs := rfl
@[simp] theorem State.halt_pc : (s.halt).pc = s.pc := rfl
@[simp] theorem State.halt_fl : (s.halt).fl = s.fl := rfl
@[simp] theorem State.halt_mode : (s.halt).mode = .halted := rfl
@[simp] theorem State.halt_faultCause : (s.halt).faultCause = s.faultCause := rfl
@[simp] theorem State.halt_mem : (s.halt).mem = s.mem := rfl
@[simp] theorem State.halt_out : (s.halt).out = s.out := rfl
@[simp] theorem State.reg_halt (j : RegIdx) : (s.halt).reg j = s.reg j := rfl
@[simp] theorem State.sp_halt : (s.halt).sp = s.sp := rfl
@[simp] theorem State.pushAddress_halt : (s.halt).pushAddress = s.pushAddress := rfl
@[simp] theorem State.memRead_halt (x : Byte) : (s.halt).memRead x = s.memRead x := rfl

/-! ### enterFault -/

@[simp] theorem State.enterFault_regs (e : Exn) : (s.enterFault e).regs = s.regs := rfl
@[simp] theorem State.enterFault_pc (e : Exn) : (s.enterFault e).pc = s.pc := rfl
@[simp] theorem State.enterFault_fl (e : Exn) : (s.enterFault e).fl = s.fl := rfl
@[simp] theorem State.enterFault_mode (e : Exn) : (s.enterFault e).mode = .faulted := rfl
@[simp] theorem State.enterFault_faultCause (e : Exn) : (s.enterFault e).faultCause = e.cause := rfl
@[simp] theorem State.enterFault_mem (e : Exn) : (s.enterFault e).mem = s.mem := rfl
@[simp] theorem State.enterFault_out (e : Exn) : (s.enterFault e).out = s.out := rfl
@[simp] theorem State.reg_enterFault (e : Exn) (j : RegIdx) : (s.enterFault e).reg j = s.reg j := rfl
@[simp] theorem State.sp_enterFault (e : Exn) : (s.enterFault e).sp = s.sp := rfl
@[simp] theorem State.pushAddress_enterFault (e : Exn) : (s.enterFault e).pushAddress = s.pushAddress := rfl
@[simp] theorem State.memRead_enterFault (e : Exn) (x : Byte) : (s.enterFault e).memRead x = s.memRead x := rfl

/-! ### placeAtPc -/

@[simp] theorem State.placeAtPc_regs (w : Fetched) : (s.placeAtPc w).regs = s.regs := rfl
@[simp] theorem State.placeAtPc_pc (w : Fetched) : (s.placeAtPc w).pc = s.pc := rfl
@[simp] theorem State.placeAtPc_fl (w : Fetched) : (s.placeAtPc w).fl = s.fl := rfl
@[simp] theorem State.placeAtPc_mode (w : Fetched) : (s.placeAtPc w).mode = s.mode := rfl
@[simp] theorem State.placeAtPc_faultCause (w : Fetched) : (s.placeAtPc w).faultCause = s.faultCause := rfl
@[simp] theorem State.placeAtPc_mem (w : Fetched) : (s.placeAtPc w).mem = s.mem.writeBytes s.pc w.toList := rfl
@[simp] theorem State.placeAtPc_out (w : Fetched) : (s.placeAtPc w).out = s.out := rfl
@[simp] theorem State.reg_placeAtPc (w : Fetched) (j : RegIdx) : (s.placeAtPc w).reg j = s.reg j := rfl
@[simp] theorem State.sp_placeAtPc (w : Fetched) : (s.placeAtPc w).sp = s.sp := rfl
@[simp] theorem State.pushAddress_placeAtPc (w : Fetched) : (s.placeAtPc w).pushAddress = s.pushAddress := rfl

/-! ### placeAndRun -/

@[simp] theorem State.placeAndRun_regs (w : Fetched) : (s.placeAndRun w).regs = s.regs := rfl
@[simp] theorem State.placeAndRun_pc (w : Fetched) : (s.placeAndRun w).pc = s.pc := rfl
@[simp] theorem State.placeAndRun_fl (w : Fetched) : (s.placeAndRun w).fl = s.fl := rfl
@[simp] theorem State.placeAndRun_mode (w : Fetched) : (s.placeAndRun w).mode = .running := rfl
@[simp] theorem State.placeAndRun_faultCause (w : Fetched) : (s.placeAndRun w).faultCause = s.faultCause := rfl
@[simp] theorem State.placeAndRun_mem (w : Fetched) : (s.placeAndRun w).mem = s.mem.writeBytes s.pc w.toList := rfl
@[simp] theorem State.placeAndRun_out (w : Fetched) : (s.placeAndRun w).out = s.out := rfl
@[simp] theorem State.reg_placeAndRun (w : Fetched) (j : RegIdx) : (s.placeAndRun w).reg j = s.reg j := rfl
@[simp] theorem State.sp_placeAndRun (w : Fetched) : (s.placeAndRun w).sp = s.sp := rfl
@[simp] theorem State.pushAddress_placeAndRun (w : Fetched) : (s.placeAndRun w).pushAddress = s.pushAddress := rfl

/-! ### Registers -/

theorem State.reg_setReg (k j : RegIdx) (v : Byte) : (s.setReg k v).reg j = if j = k then v else s.reg j := by
  simp only [State.reg, State.setReg, Fin.getElem_fin, Vector.getElem_set, Fin.ext_iff, eq_comm]

@[simp] theorem State.reg_setReg_same (k : RegIdx) (v : Byte) : (s.setReg k v).reg k = v := by
  simp [State.reg_setReg]

theorem State.reg_setReg_ne {k j : RegIdx} (h : j ≠ k) (v : Byte) : (s.setReg k v).reg j = s.reg j := by
  simp [State.reg_setReg, h]

theorem State.reg_setSp (j : RegIdx) (v : Byte) : (s.setSp v).reg j = if j = Config.spIndex then v else s.reg j :=
  s.reg_setReg Config.spIndex j v

@[simp] theorem State.sp_setSp (v : Byte) : (s.setSp v).sp = v := s.reg_setReg_same Config.spIndex v

theorem State.sp_setReg (k : RegIdx) (v : Byte) : (s.setReg k v).sp = if Config.spIndex = k then v else s.sp :=
  s.reg_setReg k Config.spIndex v

/-- Two states agree when every observer agrees. -/
theorem State.ext_obs {s t : State} (hr : ∀ k, t.reg k = s.reg k) (hp : t.pc = s.pc) (hf : t.fl = s.fl) (hm : t.mode = s.mode)
    (hc : t.faultCause = s.faultCause) (hmem : t.mem = s.mem) (ho : t.out = s.out) : t = s := by
  obtain ⟨r, p, f, m, c, mem, o⟩ := s
  obtain ⟨r', p', f', m', c', mem', o'⟩ := t
  have : r' = r := Vector.ext fun i hi => hr ⟨i, hi⟩
  simp_all

/-! ### Reset -/

@[simp] theorem State.reset_pc : State.reset.pc = 0 := rfl
@[simp] theorem State.reset_fl : State.reset.fl = 0 := rfl
@[simp] theorem State.reset_mode : State.reset.mode = .notStarted := rfl
@[simp] theorem State.reset_faultCause : State.reset.faultCause = .none := rfl
@[simp] theorem State.reset_mem : State.reset.mem = [] := rfl
@[simp] theorem State.reset_out : State.reset.out = [] := rfl

end Sys2Proof.Machine
end

