-- ==== Sys2Proof/Laws/Exec.lean ====
section
/-! SUPPORT. One lemma per meaning: the state it answers when its register operands name registers. With `withReg_next` and
`withRegs_next` (Laws/Operands.lean) they say everything a meaning can do. -/

namespace Sys2Proof.Machine

variable {a b : Byte} {d r : RegIdx}

theorem execHalt_next (s : State) : execHalt s = .next s.halt := rfl

theorem execLoadImmediate_next (ha : a.toNat = d.val) (imm : Byte) (s : State) :
    execLoadImmediate a imm s = .next ((s.setReg d imm).advance 3) := withReg_ok ha s _

theorem execPrintReg_next (ha : a.toNat = d.val) (s : State) :
    execPrintReg a s = .next ((s.emit (s.reg d)).advance 2) := withReg_ok ha s _

@[simp] theorem aluResult_add (u v : Byte) : aluResult .add u v = .ok (u + v) := rfl

@[simp] theorem aluResult_multiply (u v : Byte) : aluResult .multiply u v = .ok (u * v) := rfl

theorem alu_add (d r : RegIdx) (s : State) : alu .add d r s = .ok (s.setReg d (s.reg d + s.reg r)) := rfl

theorem alu_multiply (d r : RegIdx) (s : State) : alu .multiply d r s = .ok (s.setReg d (s.reg d * s.reg r)) := rfl

theorem execAdd_next (ha : a.toNat = d.val) (hb : b.toNat = r.val) (s : State) :
    execAdd a b s = .next ((s.setReg d (s.reg d + s.reg r)).advance 3) := withRegs_ok ha hb s _

theorem execMultiply_next (ha : a.toNat = d.val) (hb : b.toNat = r.val) (s : State) :
    execMultiply a b s = .next ((s.setReg d (s.reg d * s.reg r)).advance 3) := withRegs_ok ha hb s _

theorem execPush_next (ha : a.toNat = d.val) (s : State) :
    execPush a s =
      .next (((s.setSp s.pushAddress).memWrite s.pushAddress ((s.setSp s.pushAddress).reg d)).advance 2) :=
  withReg_ok ha s _

theorem execPop_next (ha : a.toNat = d.val) (s : State) :
    execPop a s =
      .next (((s.setReg d (s.memRead s.popAddress)).setSp ((s.setReg d (s.memRead s.popAddress)).sp + 1)).advance 2) :=
  withReg_ok ha s _

theorem execCall_next (ha : a.toNat = d.val) (s : State) :
    execCall a s =
      .next (((s.memWrite s.pushAddress (s.pc + 2)).setSp s.pushAddress).jumpTo
        (((s.memWrite s.pushAddress (s.pc + 2)).setSp s.pushAddress).reg d)) :=
  withReg_ok ha s _

theorem execRet_next (s : State) :
    execRet s = .next ((s.jumpTo (s.memRead s.popAddress)).setSp (s.sp + 1)) := rfl

theorem execCompareWith_next (p : FlagMap) (ha : a.toNat = d.val) (hb : b.toNat = r.val) (s : State) :
    execCompareWith p a b s = .next ((s.setFl (compareFlags p (s.reg d) (s.reg r))).advance 3) :=
  withRegs_ok ha hb s _

theorem execCompare_next (ha : a.toNat = d.val) (hb : b.toNat = r.val) (s : State) :
    execCompare a b s = .next ((s.setFl (compareFlags defaultFlags (s.reg d) (s.reg r))).advance 3) :=
  execCompareWith_next defaultFlags ha hb s

theorem execJumpEqualWith_taken {p : FlagMap} (ha : a.toNat = d.val) {s : State} (h : s.fl = p.equal) :
    execJumpEqualWith p a s = .next (s.jumpTo (s.reg d)) := by
  rw [execJumpEqualWith, withReg_ok ha, if_pos ((flagsEqual_iff _ _).2 h)]

theorem execJumpEqual_taken (ha : a.toNat = d.val) {s : State} (h : s.fl = defaultFlags.equal) :
    execJumpEqual a s = .next (s.jumpTo (s.reg d)) := execJumpEqualWith_taken ha h

theorem execJumpEqualWith_fallsThrough {p : FlagMap} (ha : a.toNat = d.val) {s : State} (h : s.fl ≠ p.equal) :
    execJumpEqualWith p a s = .next (s.advance 2) := by
  rw [execJumpEqualWith, withReg_ok ha, if_neg (by simpa using h)]

theorem execJumpEqual_fallsThrough (ha : a.toNat = d.val) {s : State} (h : s.fl ≠ defaultFlags.equal) :
    execJumpEqual a s = .next (s.advance 2) := execJumpEqualWith_fallsThrough ha h

theorem execJump_next (ha : a.toNat = d.val) (s : State) : execJump a s = .next (s.jumpTo (s.reg d)) := withReg_ok ha s _

theorem execJumpNotEqualWith_taken {p : FlagMap} (ha : a.toNat = d.val) {s : State} (h : s.fl ≠ p.equal) :
    execJumpNotEqualWith p a s = .next (s.jumpTo (s.reg d)) := by
  rw [execJumpNotEqualWith, withReg_ok ha, if_neg (by simpa using h)]

theorem execJumpNotEqual_taken (ha : a.toNat = d.val) {s : State} (h : s.fl ≠ defaultFlags.equal) :
    execJumpNotEqual a s = .next (s.jumpTo (s.reg d)) := execJumpNotEqualWith_taken ha h

theorem execJumpNotEqualWith_fallsThrough {p : FlagMap} (ha : a.toNat = d.val) {s : State} (h : s.fl = p.equal) :
    execJumpNotEqualWith p a s = .next (s.advance 2) := by
  rw [execJumpNotEqualWith, withReg_ok ha, if_pos ((flagsEqual_iff _ _).2 h)]

theorem execJumpNotEqual_fallsThrough (ha : a.toNat = d.val) {s : State} (h : s.fl = defaultFlags.equal) :
    execJumpNotEqual a s = .next (s.advance 2) := execJumpNotEqualWith_fallsThrough ha h

/-! ### Every instruction -/

/-- `exec` is the machine with the default flag map. -/
@[simp] theorem execWith_defaultFlags (i : Instr) (s : State) : execWith defaultFlags i s = exec i s := by cases i <;> rfl

/-- Only COMPARE and the conditional jumps depend on the flag map. -/
theorem execWith_eq_exec (p : FlagMap) {i : Instr} (s : State) (hc : ∀ a b, i ≠ .compare a b) (he : ∀ a, i ≠ .jumpEqual a)
    (hn : ∀ a, i ≠ .jumpNotEqual a) : execWith p i s = exec i s := by
  cases i with
  | compare a b => exact absurd rfl (hc a b)
  | jumpEqual a => exact absurd rfl (he a)
  | jumpNotEqual a => exact absurd rfl (hn a)
  | _ => rfl

/-- An instruction with a bad register operand takes InvalidRegisterIndex for one of its own register bytes, and does nothing else,
whatever the flag map. -/
theorem execWith_of_not_wellFormed (p : FlagMap) {i : Instr} (h : ¬ i.WellFormed) (s : State) :
    ∃ k ∈ i.registerOperands, 7 < k.toNat ∧ execWith p i s = .next (s.enterFault (.invalidRegisterIndex k)) := by
  have one (a : Byte) (body : RegIdx → Result) (ha : ¬ a.toNat ≤ 7) :
      ∃ k ∈ [a], 7 < k.toNat ∧ withReg a s body = .next (s.enterFault (.invalidRegisterIndex k)) :=
    ⟨a, List.mem_singleton_self a, by omega, withReg_error (by omega) s body⟩
  have two (a b : Byte) (body : RegIdx → RegIdx → Result) (hab : ¬ (a.toNat ≤ 7 ∧ b.toNat ≤ 7)) :
      ∃ k ∈ [a, b], 7 < k.toNat ∧ withRegs a b s body = .next (s.enterFault (.invalidRegisterIndex k)) := by
    rcases regByte_cases a with ⟨d, hd⟩ | ha
    · have hb : 7 < b.toNat := by have := d.isLt; omega
      exact ⟨b, by simp, hb, withRegs_error_right hd hb s body⟩
    · exact ⟨a, by simp, ha, withRegs_error_left ha s body⟩
  cases i <;> simp only [Instr.WellFormed, Instr.registerOperands, List.mem_cons, List.not_mem_nil, or_false, forall_eq,
    forall_eq_or_imp, IsEmpty.forall_iff, implies_true, not_true] at h
  case loadImmediate => exact one _ _ h
  case printReg => exact one _ _ h
  case add => exact two _ _ _ h
  case multiply => exact two _ _ _ h
  case push => exact one _ _ h
  case pop => exact one _ _ h
  case call => exact one _ _ h
  case compare => exact two _ _ _ h
  case jumpEqual => exact one _ _ h
  case jump => exact one _ _ h
  case jumpNotEqual => exact one _ _ h

/-- What any instruction that answers a next state did: it took InvalidRegisterIndex for one of its register bytes, or its register
bytes all name registers (and its `_next` lemma above gives the state). -/
theorem execWith_next {p : FlagMap} {i : Instr} {s t : State} (h : execWith p i s = .next t) :
    (∃ k ∈ i.registerOperands, 7 < k.toNat ∧ t = s.enterFault (.invalidRegisterIndex k)) ∨ i.WellFormed := by
  by_cases hw : i.WellFormed
  · exact .inr hw
  · obtain ⟨k, hk, h7, he⟩ := execWith_of_not_wellFormed p hw s
    exact .inl ⟨k, hk, h7, Host.Outcome.next.inj (h.symm.trans he)⟩

theorem exec_of_not_wellFormed {i : Instr} (h : ¬ i.WellFormed) (s : State) :
    ∃ k ∈ i.registerOperands, 7 < k.toNat ∧ exec i s = .next (s.enterFault (.invalidRegisterIndex k)) :=
  execWith_defaultFlags i s ▸ execWith_of_not_wellFormed defaultFlags h s

theorem exec_next {i : Instr} {s t : State} (h : exec i s = .next t) :
    (∃ k ∈ i.registerOperands, 7 < k.toNat ∧ t = s.enterFault (.invalidRegisterIndex k)) ∨ i.WellFormed :=
  execWith_next (p := defaultFlags) (by rw [execWith_defaultFlags, h])

/-- A register byte of a well-formed instruction names a register. -/
theorem exists_reg_of_le {a : Byte} (h : a.toNat ≤ 7) : ∃ d : RegIdx, a.toNat = d.val := ⟨⟨a.toNat, by omega⟩, rfl⟩

theorem FaultCause.code_inj {c c' : FaultCause} (h : c.code = c'.code) : c = c' := by
  cases c <;> cases c' <;> first | rfl | (exact absurd h (by decide))

/-! ### The step -/

theorem stepWith_running {c : Params} {s : State} (h : s.mode = .running) :
    stepWith c s = runDecoded c.flags (decodeWith c.opcodes s.fetch) s := by
  simp [stepWith, h]

theorem stepWith_notStarted {c : Params} {s : State} (h : s.mode = .notStarted) :
    stepWith c s = .fault .notStarted := by
  simp [stepWith, h]

theorem stepWith_halted {c : Params} {s : State} (h : s.mode = .halted) : stepWith c s = .fault .halted := by
  simp [stepWith, h]

theorem stepWith_faulted {c : Params} {s : State} (h : s.mode = .faulted) : stepWith c s = .fault .faulted := by
  simp [stepWith, h]

/-- What a step that answers a next state did: it was RUNNING, and it ran the decoded instruction or the undefined-opcode no-op. -/
theorem stepWith_next {c : Params} {s t : State} (h : stepWith c s = .next t) :
    s.mode = .running ∧ ((∃ i, decodeWith c.opcodes s.fetch = .instr i ∧ execWith c.flags i s = .next t) ∨
      (∃ ir, decodeWith c.opcodes s.fetch = .undefinedOpcode ir ∧ t = s.advance 1)) := by
  cases hm : s.mode with
  | running =>
    rw [stepWith_running hm] at h
    refine ⟨rfl, ?_⟩
    cases hd : decodeWith c.opcodes s.fetch with
    | instr i => exact .inl ⟨i, rfl, by simpa [hd, runDecoded] using h⟩
    | undefinedOpcode ir =>
      rw [hd] at h
      exact .inr ⟨ir, rfl, (Host.Outcome.next.inj h).symm⟩
  | notStarted => rw [stepWith_notStarted hm] at h; nomatch h
  | halted => rw [stepWith_halted hm] at h; nomatch h
  | faulted => rw [stepWith_faulted hm] at h; nomatch h

/-- The three fetched bytes of a word placed at `pc` are the word's own: the three addresses differ modulo 256. -/
theorem State.fetch_placeAndRun (s : State) (w : Fetched) : (s.placeAndRun w).fetch = w := by
  have h (x : Byte) : (s.placeAndRun w).memRead x =
      if (x - s.pc).toNat < 3 then w.toList.getD (x - s.pc).toNat 0 else s.memRead x :=
    Memory.read_writeBytes s.mem s.pc x w.toList (by simp [Fetched.toList])
  have h0 : s.pc - s.pc = 0 := by bv_omega
  have h1 : s.pc + 1 - s.pc = 1 := by bv_omega
  have h2 : s.pc + 2 - s.pc = 2 := by bv_omega
  rw [State.fetch, State.placeAndRun_pc, h, h, h, h0, h1, h2]
  rfl

end Sys2Proof.Machine
end

