-- ==== Sys2Proof/Laws/HostMoves.lean ====
section
/-! SUPPORT. What each host move that is performed did. -/

namespace Sys2Proof.Machine

theorem hostLoad_ok {bytes : List Byte} {s t : State} (h : hostLoad bytes s = .ok t) :
    s.mode = .notStarted ∧ bytes.length ≤ Config.maxProgram ∧
      t = { s with mem := s.mem.writeBytes (BitVec.ofNat 8 Config.loadBase) bytes } := by
  unfold hostLoad at h
  split at h
  · nomatch h
  · split at h
    · nomatch h
    · rename_i hm hl
      exact ⟨not_not.1 hm, by omega, (Except.ok.inj h).symm⟩

theorem hostRun_ok {s t : State} (h : hostRun s = .ok t) : s.mode = .notStarted ∧ t = { s with mode := .running } := by
  unfold hostRun at h
  split at h
  · nomatch h
  · rename_i hm
    exact ⟨not_not.1 hm, (Except.ok.inj h).symm⟩

theorem hostWriteMemory_ok {address value : Nat} {s t : State} (h : hostWriteMemory address value s = .ok t) :
    s.mode ≠ .running ∧ t = s.memWrite (BitVec.ofNat 8 address) (BitVec.ofNat 8 value) := by
  unfold hostWriteMemory at h
  split at h
  · nomatch h
  · rename_i hm
    exact ⟨hm, (Except.ok.inj h).symm⟩

end Sys2Proof.Machine
end

