-- ==== Sys2Proof/Laws/PerInstr.lean ====
section
/-! SUPPORT. Statements about every instruction as syntax, one lemma per constructor. -/

namespace Sys2Proof.Laws

/-- The shape of an encoding (spec/30_encoding.md R60, R61): the opcode byte first, `1 + operand_count` bytes in all, and every
register index among the operand bytes. -/
def EncodingShape.Statement (i : Instr) : Prop :=
  ∀ m : OpcodeMap, (encodeWith m i).head? = some (m.byte i.opcode) ∧ (encodeWith m i).length = i.opcode.length ∧
    i.registerOperands ⊆ (encodeWith m i).tail

theorem EncodingShape.halt : EncodingShape.Statement (.halt) :=
  fun _ => ⟨rfl, rfl, by simp [Instr.registerOperands, encodeWith]⟩

theorem EncodingShape.loadImmediate (a imm : Byte) : EncodingShape.Statement (.loadImmediate a imm) :=
  fun _ => ⟨rfl, rfl, by simp [Instr.registerOperands, encodeWith]⟩

theorem EncodingShape.printReg (a : Byte) : EncodingShape.Statement (.printReg a) :=
  fun _ => ⟨rfl, rfl, by simp [Instr.registerOperands, encodeWith]⟩

theorem EncodingShape.add (a b : Byte) : EncodingShape.Statement (.add a b) :=
  fun _ => ⟨rfl, rfl, by simp [Instr.registerOperands, encodeWith]⟩

theorem EncodingShape.multiply (a b : Byte) : EncodingShape.Statement (.multiply a b) :=
  fun _ => ⟨rfl, rfl, by simp [Instr.registerOperands, encodeWith]⟩

theorem EncodingShape.push (a : Byte) : EncodingShape.Statement (.push a) :=
  fun _ => ⟨rfl, rfl, by simp [Instr.registerOperands, encodeWith]⟩

theorem EncodingShape.pop (a : Byte) : EncodingShape.Statement (.pop a) :=
  fun _ => ⟨rfl, rfl, by simp [Instr.registerOperands, encodeWith]⟩

theorem EncodingShape.call (a : Byte) : EncodingShape.Statement (.call a) :=
  fun _ => ⟨rfl, rfl, by simp [Instr.registerOperands, encodeWith]⟩

theorem EncodingShape.ret : EncodingShape.Statement (.ret) :=
  fun _ => ⟨rfl, rfl, by simp [Instr.registerOperands, encodeWith]⟩

theorem EncodingShape.compare (a b : Byte) : EncodingShape.Statement (.compare a b) :=
  fun _ => ⟨rfl, rfl, by simp [Instr.registerOperands, encodeWith]⟩

theorem EncodingShape.jumpEqual (a : Byte) : EncodingShape.Statement (.jumpEqual a) :=
  fun _ => ⟨rfl, rfl, by simp [Instr.registerOperands, encodeWith]⟩

theorem EncodingShape.jump (a : Byte) : EncodingShape.Statement (.jump a) :=
  fun _ => ⟨rfl, rfl, by simp [Instr.registerOperands, encodeWith]⟩

theorem EncodingShape.jumpNotEqual (a : Byte) : EncodingShape.Statement (.jumpNotEqual a) :=
  fun _ => ⟨rfl, rfl, by simp [Instr.registerOperands, encodeWith]⟩

end Sys2Proof.Laws
end

