-- ==== Sys2Proof/Tests/Slice0.lean ====
section
/-! SUPPORT. The model's own tests. Expected results come from spec/95_test_vectors.md (V and H numbers) and from the encodings of
spec/30_encoding.md R61, R66; the witnesses at the end meet the hypotheses of the statements in Certificates/Slice0/Obligations.lean. -/

namespace Sys2Proof.Tests

open Sys2Proof Sys2Proof.Machine

/-! ### Helpers -/

/-- The next state of an outcome. -/
def nextOf (r : Result) : Option State :=
  match r with
  | .next t => some t
  | .fault _ => none
  | .refused _ => none

/-- The reset state in RUNNING at `pc` with bytes at `pc` (95 part 2: "from the reset state modified as the start column says"). -/
def start (pc ir a b : Byte) : State := ({ State.reset with pc := pc }).placeAndRun ⟨ir, a, b⟩

/-- One field of the state after one step. -/
def after {α : Type} (f : State → α) (s : State) : Option α := (nextOf (step s)).map f

/-! ### Well-formedness: each check refuses an ill-formed term (R64) -/

theorem test_wf_loadImmediate : ¬ (Instr.loadImmediate 8 0).WellFormed ∧ (Instr.loadImmediate 7 255).WellFormed := by decide
theorem test_wf_printReg : ¬ (Instr.printReg 9).WellFormed := by decide
theorem test_wf_add_a : ¬ (Instr.add 8 0).WellFormed := by decide
theorem test_wf_add_b : ¬ (Instr.add 0 8).WellFormed := by decide
theorem test_wf_multiply_a : ¬ (Instr.multiply 255 0).WellFormed := by decide
theorem test_wf_multiply_b : ¬ (Instr.multiply 0 255).WellFormed := by decide
theorem test_wf_push : ¬ (Instr.push 8).WellFormed := by decide
theorem test_wf_pop : ¬ (Instr.pop 0x10).WellFormed := by decide
theorem test_wf_call : ¬ (Instr.call 8).WellFormed := by decide
theorem test_wf_compare_a : ¬ (Instr.compare 8 0).WellFormed := by decide
theorem test_wf_compare_b : ¬ (Instr.compare 0 8).WellFormed := by decide
theorem test_wf_jumpEqual : ¬ (Instr.jumpEqual 8).WellFormed := by decide
theorem test_wf_jump : ¬ (Instr.jump 0x0A).WellFormed := by decide
theorem test_wf_jumpNotEqual : ¬ (Instr.jumpNotEqual 0x80).WellFormed := by decide
theorem test_wf_no_operand : Instr.halt.WellFormed ∧ Instr.ret.WellFormed := by decide

/-! ### Decoding: every constructor from a word written out bit by bit (R61, R66, the binary column) -/

theorem test_decode_halt : decode ⟨0b00000001, 0xFF, 0xFF⟩ = .instr .halt := by decide
theorem test_decode_loadImmediate : decode ⟨0b10000010, 0b00000001, 0b00101010⟩ = .instr (.loadImmediate 1 42) := by decide
theorem test_decode_printReg : decode ⟨0b01000111, 0b00000111, 0⟩ = .instr (.printReg 7) := by decide
theorem test_decode_add : decode ⟨0b10100000, 0b00000010, 0b00000011⟩ = .instr (.add 2 3) := by decide
theorem test_decode_multiply : decode ⟨0b10100010, 0b00000000, 0b00000001⟩ = .instr (.multiply 0 1) := by decide
theorem test_decode_push : decode ⟨0b01000101, 0b00000100, 0⟩ = .instr (.push 4) := by decide
theorem test_decode_pop : decode ⟨0b01000110, 0b00000110, 0⟩ = .instr (.pop 6) := by decide
theorem test_decode_call : decode ⟨0b01010000, 0b00000001, 0⟩ = .instr (.call 1) := by decide
theorem test_decode_ret : decode ⟨0b00010001, 0xFF, 0xFF⟩ = .instr .ret := by decide
theorem test_decode_compare : decode ⟨0b10100111, 0b00000101, 0b00000110⟩ = .instr (.compare 5 6) := by decide
theorem test_decode_jumpEqual : decode ⟨0b01010101, 0b00000010, 0⟩ = .instr (.jumpEqual 2) := by decide
theorem test_decode_jump : decode ⟨0b01010100, 0b00000011, 0⟩ = .instr (.jump 3) := by decide
theorem test_decode_jumpNotEqual : decode ⟨0b01010110, 0b00000010, 0⟩ = .instr (.jumpNotEqual 2) := by decide

/-- 95 section 2.7: the nearest neighbours decode to "undefined". -/
theorem test_decode_neighbours :
    ∀ ir ∈ ([0x00, 0x02, 0x10, 0x12, 0x44, 0x48, 0x51, 0x53, 0x57, 0x81, 0x83, 0xA1, 0xA3, 0xA6, 0xA8] : List Byte),
      decode ⟨ir, 0, 0⟩ = .undefinedOpcode ir := by decide

/-- The encoder's bytes, R70's table: `LOAD_IMMEDIATE r0, 8` is 82 00 08 (program P1). -/
theorem test_encode_loadImmediate : encode (.loadImmediate 0 8) = [0x82, 0x00, 0x08] := by decide

/-- The host's word, opcode in the low byte; a row of 8 bits has operand bytes 0. -/
theorem test_table_word : decodeTableWord 24 0x0301A0 = some (.add 1 3) ∧ decodeTableWord 8 0xA0 = some (.add 0 0) ∧
    decodeTableWord 8 0x00 = none := by decide

/-! ### One step per vector -/

theorem test_undefined_wraps_V2 : after State.pc (start 0xFF 0x83 0 0) = some 0x00 := by decide
theorem test_undefined_advances_by_one_V3 :
    after (fun t => (t.pc, t.reg 0)) ((start 0x20 0xA1 0 1).setReg 0 9) = some (0x21, 9) := by decide
theorem test_halt_V6 : after (fun t => (t.mode, t.pc)) (start 0xFF 0x01 0 0) = some (.halted, 0xFF) := by decide
theorem test_loadImmediate_sp_V9 : after (fun t => (t.sp, t.pc)) (start 0 0x82 7 0x80) = some (0x80, 3) := by decide
theorem test_loadImmediate_straddles_V11 :
    after (fun t => (t.reg 1, t.pc)) (start 0xFE 0x82 1 0x2A) = some (0x2A, 0x01) := by decide
theorem test_printReg_sp_V15 : after (fun t => (t.out, t.pc)) (start 0 0x47 7 0) = some ([244], 2) := by decide
theorem test_printReg_fault_V18 : after (fun t => (t.mode, t.out)) (start 0 0x47 9 0) = some (.faulted, []) := by decide
theorem test_add_wraps_V19 :
    after (fun t => (t.reg 0, t.reg 1, t.pc)) (((start 6 0xA0 0 1).setReg 0 0xFA).setReg 1 0x0A) = some (4, 0x0A, 9) := by decide
theorem test_add_same_register_V20 : after (fun t => t.reg 0) ((start 0 0xA0 0 0).setReg 0 0xFA) = some 0xF4 := by decide
theorem test_multiply_V30 :
    after (fun t => t.reg 0) (((start 0 0xA2 0 1).setReg 0 0xFF).setReg 1 0xFF) = some 0x01 := by decide
theorem test_multiply_same_register_V32 : after (fun t => t.reg 2) ((start 0 0xA2 2 2).setReg 2 0x0D) = some 0xA9 := by decide
theorem test_push_sp_V37 : after (fun t => (t.sp, t.memRead 0xF3)) (start 0 0x45 7 0) = some (0xF3, 0xF3) := by decide
theorem test_push_wraps_V38 :
    after (fun t => (t.sp, t.memRead 0xFF)) (((start 0x10 0x45 0 0).setReg 0 0x99).setSp 0) = some (0xFF, 0x99) := by decide
theorem test_pop_sp_V42 : after State.sp (((start 0 0x46 7 0).setSp 0xF3).memWrite 0xF3 0x10) = some 0x11 := by decide
theorem test_pop_reads_itself_V45 : after (fun t => (t.reg 0, t.sp)) ((start 0 0x46 0 0).setSp 0) = some (0x46, 0x01) := by decide
theorem test_call_sp_V48 :
    after (fun t => (t.pc, t.sp, t.memRead 0xF3)) (start 0x10 0x50 7 0) = some (0xF3, 0xF3, 0x12) := by decide
theorem test_call_wraps_V50 :
    after (fun t => (t.pc, t.memRead 0xF3)) ((start 0xFF 0x50 1 0).setReg 1 0x40) = some (0x40, 0x01) := by decide
theorem test_return_empty_stack_V54 : after (fun t => (t.pc, t.sp)) (start 0x30 0x11 0 0) = some (0x00, 0xF5) := by decide
theorem test_return_ignores_operands_V56 :
    after (fun t => (t.pc, t.sp)) (((start 0x30 0x11 0xFF 0xFF).setSp 0xF3).memWrite 0xF3 0x31) = some (0x31, 0xF4) := by decide
theorem test_compare_is_unsigned_V60 :
    after State.fl (((start 6 0xA7 0 1).setReg 0 0xFF).setReg 1 1) = some 0x02 := by decide
theorem test_compare_replaces_V62 : after State.fl ((start 6 0xA7 3 3).setFl 4) = some 0x01 := by decide
theorem test_jumpEqual_V65 : after State.pc (((start 9 0x55 2 0).setReg 2 0x20).setFl 1) = some 0x20 := by decide
theorem test_jumpEqual_reset_flags_V68 : after State.pc ((start 9 0x55 2 0).setReg 2 0x20) = some 0x0B := by decide
theorem test_jump_V73 : after State.pc (start 0x30 0x54 7 0) = some 0xF4 := by decide
theorem test_jumpNotEqual_reset_flags_V78 : after State.pc ((start 9 0x56 2 0).setReg 2 0x20) = some 0x20 := by decide
theorem test_jumpNotEqual_fault_V80 :
    after (fun t => (t.mode, t.pc)) ((start 9 0x56 0x80 0).setFl 1) = some (.faulted, 9) := by decide

/-! ### Host moves (95 section 2.8) -/

theorem test_load_H2 : ((hostLoad [0x82, 0x00, 0x08] State.reset).toOption.map fun t => (t.memRead 0, t.memRead 2, t.pc)) =
    some (0x82, 0x08, 0x00) := by decide
theorem test_load_too_long_H4 : hostLoad (List.replicate 257 0) State.reset = .error (.streamTooLong 257) := by
  simp only [hostLoad, List.length_replicate]; rfl
theorem test_run_H6 : hostRun { State.reset with mode := .halted } = .error (.wrongMode .halted) := by decide
theorem test_no_step_H7 : step State.reset = .fault .notStarted := rfl
theorem test_faultIndication : ((State.reset.enterFault (.invalidRegisterIndex 8)).faultIndication, State.reset.faultIndication) =
    (some 2, none) := by decide
theorem test_trace : (start 0x10 0x82 1 0x2A).trace.bytes = ⟨0x82, 1, 0x2A⟩ := by decide
/-- R7: "only the trace hook ... shows the raw byte" (log 22). -/
theorem test_trace_shows_fl : after (fun t => t.trace.fl) (start 6 0xA7 3 3) = some 0x01 := by decide
/-- R7: the machine with another flag map leaves its own LESS, and jumps on its own EQUAL. -/
theorem test_other_flag_map :
    ((nextOf (stepWith ⟨defaultOpcodes, ⟨0x01, 0x02, 0x04⟩⟩ (start 6 0xA7 3 7))).map State.fl,
      (nextOf (stepWith ⟨defaultOpcodes, ⟨0x01, 0x02, 0x04⟩⟩ ((start 9 0x55 7 0).setFl 0x04))).map State.pc) =
    (some 0x01, some 0xF4) := by decide

/-! ### Witnesses: states and operands that meet the hypotheses of the statements

`a.toNat = d.val` is met at both ends of its range, 0 and 7, and `7 < a.toNat` at 8 and 255. -/

theorem witness_register_bytes :
    (0 : Byte).toNat = (0 : RegIdx).val ∧ (7 : Byte).toNat = (7 : RegIdx).val ∧ 7 < (8 : Byte).toNat ∧ 7 < (255 : Byte).toNat := by
  decide

theorem witness_distinct_opcodes : defaultOpcodes.Distinct ∧
    (OpcodeMap.mk 0 1 2 3 4 5 6 7 8 9 10 11 12).Distinct := by decide

theorem witness_valid_flags : defaultFlags.Valid ∧ (FlagMap.mk 0x01 0x02 0x04).Valid := by decide

/-- DecodeOfEncodeIsTheInstruction, with bytes after the instruction. -/
theorem witness_DecodeOfEncodeIsTheInstruction :
    decodeWith defaultOpcodes (Fetched.ofList (encodeWith defaultOpcodes (.push 7) ++ [0x01])) = .instr (.push 7) := by decide

/-- EncodeOfDecodeIsTheFetchedBytes and DecoderMatchesTheWholeOpcodeByte: both kinds of word. -/
theorem witness_EncodeOfDecodeIsTheFetchedBytes :
    decodeWith defaultOpcodes ⟨0xA0, 7, 0⟩ = .instr (.add 7 0) ∧ decodeWith defaultOpcodes ⟨0xFF, 0, 0⟩ = .undefinedOpcode 0xFF := by
  decide

/-- UndefinedOpcodesAre243 at the default map: the last defined and the first undefined byte. -/
theorem witness_UndefinedOpcodesAre243 :
    defaultOpcodes.Distinct ∧ (defaultOpcodes.lookup 0xA7).isSome ∧ (defaultOpcodes.lookup 0x00).isNone := by decide

/-- InstructionBytesStandAtThePc: an instruction that straddles the top of memory, each byte where R60 puts it. -/
theorem witness_InstructionBytesStandAtThePc :
    defaultOpcodes.Distinct ∧ decodeWith defaultOpcodes (start 0xFE 0x82 1 0x2A).fetch = .instr (.loadImmediate 1 0x2A) ∧
    (start 0xFE 0x82 1 0x2A).memRead 0xFF = 1 ∧ (start 0xFE 0x82 1 0x2A).memRead 0x00 = 0x2A := by decide

/-- StepRunsTheDecodedInstruction. -/
theorem witness_StepRunsTheDecodedInstruction :
    (start 0xFF 0xA7 0 7).mode = .running ∧
    decode ⟨(start 0xFF 0xA7 0 7).memRead 0xFF, (start 0xFF 0xA7 0 7).memRead 0x00, (start 0xFF 0xA7 0 7).memRead 0x01⟩ =
      .instr (.compare 0 7) := by decide

/-- UndefinedOpcodeIsAOneByteNoOp at the top of memory. -/
theorem witness_UndefinedOpcodeIsAOneByteNoOp :
    (start 0xFF 0x83 0xFF 0xFF).mode = .running ∧
    ∀ op ∈ Opcode.all, defaultOpcodes.byte op ≠ (start 0xFF 0x83 0xFF 0xFF).memRead 0xFF := by decide

/-- StepIsTakenExactlyWhenRunning, RunStateTransitions, StoppedCoreIsFrozenUntilReset: each run state is some state's. -/
theorem witness_run_states :
    (start 0 0 0 0).mode = .running ∧ State.reset.mode = .notStarted ∧ State.reset.halt.mode = .halted ∧
    (State.reset.enterFault (.invalidRegisterIndex 8)).mode = .faulted := by decide

/-- Every statement of the form "the instruction answers a next state": one next state for each constructor, with register operands at
7 where there are some. -/
theorem witness_every_instruction_completes :
    ∀ i ∈ ([.halt, .loadImmediate 7 255, .printReg 7, .add 7 0, .multiply 0 7, .push 7, .pop 7, .call 7, .ret, .compare 7 7,
        .jumpEqual 7, .jump 7, .jumpNotEqual 7] : List Instr),
      i.WellFormed ∧ ((nextOf (exec i (start 0 0 0 0))).map fun t => t.faultCause) = some .none := by decide

/-- InstructionsFaultExactlyOnABadRegisterIndex and the exception clauses: each constructor with a register operand faults at 8. -/
theorem witness_bad_register_index :
    ∀ i ∈ ([.loadImmediate 8 0, .printReg 8, .add 8 0, .add 0 8, .multiply 8 0, .multiply 7 8, .push 8, .pop 8, .call 8,
        .compare 8 8, .compare 0 255, .jumpEqual 8, .jump 8, .jumpNotEqual 8] : List Instr),
      ¬ i.WellFormed ∧ ((nextOf (exec i (start 0 0 0 0))).map fun t => (t.mode, t.faultCause)) =
        some (.faulted, .invalidRegisterIndex) := by decide

/-- FirstBadOperandIsReported, each clause. -/
theorem witness_FirstBadOperandIsReported :
    checkRegs 9 8 = .error (.invalidRegisterIndex 9) ∧ checkRegs 7 8 = .error (.invalidRegisterIndex 8) ∧
    checkRegs 7 0 = .ok (7, 0) := ⟨rfl, rfl, rfl⟩

/-- AluSupportsExactlyAddAndMultiply, each clause. -/
theorem witness_AluSupportsExactlyAddAndMultiply :
    (∃ t, alu .add 0 7 State.reset = .ok t ∧ t.reg 0 = 0xF4) ∧ (∃ t, alu .multiply 7 7 State.reset = .ok t ∧ t.reg 7 = 0x90) ∧
    alu (.other 0) 0 0 State.reset = .error (.unsupportedOperation (.other 0)) :=
  ⟨⟨_, rfl, by decide⟩, ⟨_, rfl, by decide⟩, rfl⟩

/-- CompareSetsExactlyOneFlag and CompareAndBranchLaws: less, greater and equal operands occur, and so does each row of the table. -/
theorem witness_compare_rows :
    ((nextOf (exec (.compare 0 7) State.reset)).map State.fl, (nextOf (exec (.compare 7 0) State.reset)).map State.fl,
      (nextOf (exec (.compare 7 7) State.reset)).map State.fl) = (some 0x04, some 0x02, some 0x01) ∧
    State.reset.fl = 0x00 := by decide

/-- StepFaultsExactlyOnABadRegisterIndex. -/
theorem witness_StepFaultsExactlyOnABadRegisterIndex :
    ∃ t, stepWith defaultParams (start 9 0x56 8 0) = .next t ∧ t.mode = .faulted := ⟨_, rfl, by decide⟩

/-- StepHaltsExactlyOnTheHaltByte, and its step that goes on. -/
theorem witness_StepHaltsExactlyOnTheHaltByte :
    defaultOpcodes.Distinct ∧ (∃ t, stepWith defaultParams (start 0xFF 0x01 0 0) = .next t ∧ t.mode = .halted) ∧
    ∃ t, stepWith defaultParams (start 0xFF 0x00 0 0) = .next t ∧ t.mode = .running :=
  ⟨by decide, ⟨_, rfl, by decide⟩, ⟨_, rfl, by decide⟩⟩

/-- OnlyCompareWritesFlags: a step that changes `fl`. -/
theorem witness_OnlyCompareWritesFlags :
    ∃ t, stepWith defaultParams (start 0 0xA7 7 7) = .next t ∧ t.fl ≠ (start 0 0xA7 7 7).fl := ⟨_, rfl, by decide⟩

/-- OnlyConditionalJumpsReadFlags. -/
theorem witness_OnlyConditionalJumpsReadFlags :
    (∀ a, Instr.add 7 0 ≠ .jumpEqual a ∧ Instr.add 7 0 ≠ .jumpNotEqual a) ∧ ∃ t, exec (.add 7 0) State.reset = .next t :=
  ⟨fun _ => ⟨nofun, nofun⟩, _, rfl⟩

/-- OnlyTheListedRegistersAreWritten, OnlyTheListedRegistersAreRead: POP of register 6 neither writes nor reads register 0. -/
theorem witness_register_tables :
    ¬ WritesReg (.pop 6) 0 ∧ ¬ ReadsReg (.pop 6) State.reset 0 ∧ ∃ t, exec (.pop 6) State.reset = .next t :=
  ⟨by simp [WritesReg], by simp [ReadsReg], _, rfl⟩

/-- OnlyPushAndCallStore, each clause: a store, an instruction that stores nothing, and a PUSH that faults. -/
theorem witness_OnlyPushAndCallStore :
    (∃ t, exec (.push 7) State.reset = .next t ∧ t.mem ≠ State.reset.mem) ∧ (∃ t, exec .ret State.reset = .next t) ∧
    ∃ t, exec (.push 8) State.reset = .next t ∧ ¬ (Instr.push 8).WellFormed :=
  ⟨⟨_, rfl, by decide⟩, ⟨_, rfl⟩, ⟨_, rfl, by decide⟩⟩

/-- OnlyPrintRegEmits. -/
theorem witness_OnlyPrintRegEmits : ∃ t, exec (.printReg 7) State.reset = .next t ∧ t.out = [0xF4] := ⟨_, rfl, by decide⟩

/-- PcAdvancesByOnePlusOperandCount: the wrap at the top of memory. -/
theorem witness_PcAdvancesByOnePlusOperandCount :
    (Instr.add 7 7).WellFormed ∧ ∃ t, exec (.add 7 7) (start 0xFE 0 0 0) = .next t ∧ t.pc = 0x01 := ⟨by decide, _, rfl, by decide⟩

/-- PushStoresBelowTheStackPointer, PushThenPopRoundTrips: with `sp` at 0 the store is at 0xFF. -/
theorem witness_push_wraps : (State.reset.setSp 0).pushAddress = 0xFF := by decide

/-- PopLoadsFromTheStackPointer: both clauses, another register and register 7. -/
theorem witness_PopLoadsFromTheStackPointer :
    (6 : Byte).toNat = (6 : RegIdx).val ∧ (6 : RegIdx) ≠ 7 ∧ (7 : Byte).toNat = (7 : RegIdx).val := by decide

/-- TwoPushesAndTwoPopsSwap. -/
theorem witness_TwoPushesAndTwoPopsSwap :
    (0 : Byte).toNat = (0 : RegIdx).val ∧ (6 : Byte).toNat = (6 : RegIdx).val ∧ (0 : RegIdx) ≠ 6 ∧ (0 : RegIdx) ≠ 7 ∧
    (6 : RegIdx) ≠ 7 := by decide

/-- CallThenReturnResumes: the state just after the CALL meets its own hypotheses. -/
theorem witness_CallThenReturnResumes :
    (7 : Byte).toNat = (7 : RegIdx).val ∧ ∃ t, exec (.call 7) (start 0xFE 0 0 0) = .next t ∧ t.sp = 0xF3 ∧
      t.memRead t.sp = 0x00 := ⟨by decide, _, rfl, by decide, by decide⟩

/-- StoredBytesAreFetchedAtOnce: V39, a PUSH that hits the next opcode byte; and the same for each of the other two bytes. -/
theorem witness_StoredBytesAreFetchedAtOnce :
    (∃ t, exec (.push 0) ((start 0 0x45 0 0).setSp 0x03) = .next t ∧ t.pc = ((start 0 0x45 0 0).setSp 0x03).pushAddress) ∧
    (∃ t, exec (.push 0) ((start 0 0x45 0 0).setSp 0x04) = .next t ∧ t.pc + 1 = ((start 0 0x45 0 0).setSp 0x04).pushAddress) ∧
    (∃ t, exec (.push 0) ((start 0 0x45 0 0).setSp 0x05) = .next t ∧ t.pc + 2 = ((start 0 0x45 0 0).setSp 0x05).pushAddress) ∧
    ∃ t, exec (.call 7) (start 0 0x50 7 0) = .next t ∧ t.pc = (start 0 0x50 7 0).pushAddress :=
  ⟨⟨_, rfl, by decide⟩, ⟨_, rfl, by decide⟩, ⟨_, rfl, by decide⟩, ⟨_, rfl, by decide⟩⟩

/-- The clauses of StoredBytesAreFetchedAtOnce about CALL and the second and third fetched byte. -/
theorem witness_StoredBytesAreFetchedAtOnce_call :
    (∃ t, exec (.call 0) (start 0 0x50 0 0 |>.setReg 0 0xF2) = .next t ∧
      t.pc + 1 = (start 0 0x50 0 0 |>.setReg 0 0xF2).pushAddress) ∧
    ∃ t, exec (.call 0) (start 0 0x50 0 0 |>.setReg 0 0xF1) = .next t ∧
      t.pc + 2 = (start 0 0x50 0 0 |>.setReg 0 0xF1).pushAddress :=
  ⟨⟨_, rfl, by decide⟩, ⟨_, rfl, by decide⟩⟩

/-- CanonicalMemoriesThatReadAlikeAreEqual: a canonical memory with cells at both ends. -/
theorem witness_CanonicalMemories : Memory.wf [(0, 1), (255, 2)] ∧ Memory.write [(255, 2)] 0 1 = [(0, 1), (255, 2)] := by decide

/-- StepKeepsTheInvariant under a flag map that is not the default one. -/
theorem witness_invariant_other_flags : ((start 0 0xA7 7 7).setFl 0x02).Inv ⟨0x01, 0x02, 0x04⟩ :=
  ⟨by decide, by decide, by decide, by decide⟩

/-- StepKeepsTheInvariant and HostMovesKeepTheInvariant: a state with the invariant that steps, and the moves that are performed. -/
theorem witness_invariant_start : (start 0 0x01 0 0).Inv defaultFlags := ⟨by decide, by decide, by decide, by decide⟩

theorem witness_StepKeepsTheInvariant : ∃ t, stepWith defaultParams (start 0 0x01 0 0) = .next t ∧ t.mode = .halted :=
  ⟨_, rfl, by decide⟩

theorem witness_HostMovesKeepTheInvariant :
    (∃ t, hostMove (.load [0x01]) State.reset = .ok t) ∧ (∃ t, hostMove .run State.reset = .ok t) ∧
    (∃ t, hostMove (.writeMemory 256 257) State.reset = .ok t) ∧ ∃ t, hostMove .reset State.reset = .ok t :=
  ⟨⟨_, rfl⟩, ⟨_, rfl⟩, ⟨_, rfl⟩, ⟨_, rfl⟩⟩

/-- ReachableStatesHaveTheInvariant: a state some steps and moves lead to, in HALTED. -/
theorem witness_ReachableStatesHaveTheInvariant : ∃ t, Reachable defaultParams t ∧ t.mode = .halted :=
  ⟨_, .event .step (.event (.host .run) (.event (.host (.load [0x01])) .reset rfl) rfl) rfl, by decide⟩

/-- RunStateTransitions, StoppedCoreIsFrozenUntilReset: a host write in HALTED happens. -/
theorem witness_StoppedCoreIsFrozenUntilReset :
    ∃ t, Happens defaultParams (.host (.writeMemory 0 1)) State.reset.halt t ∧ t.mode = .halted := ⟨_, rfl, by decide⟩

/-- LoadWritesTheStreamFromAddressZero: lengths at and above the limit. -/
theorem witness_LoadWritesTheStreamFromAddressZero :
    State.reset.mode = .notStarted ∧ (List.replicate 256 (1 : Byte)).length ≤ 256 ∧ 256 < (List.replicate 257 (1 : Byte)).length ∧
    State.reset.halt.mode ≠ .notStarted := by
  simp only [List.length_replicate]; decide

/-- HostMemoryPrimitivesReduceModulo256: an address that wraps, and one that does not meet it. -/
theorem witness_HostMemoryPrimitives : State.reset.mode ≠ .running ∧ (255 : Nat) % 256 ≠ 256 % 256 := by decide

/-- BootRunsTheFirstLoadedInstruction. -/
theorem witness_BootRunsTheFirstLoadedInstruction :
    defaultOpcodes.Distinct ∧ (encodeWith defaultOpcodes (.loadImmediate 7 255) ++ [0x01]).length ≤ 256 := by decide

/-- ZeroMemoryRunsForever. -/
theorem witness_ZeroMemoryRunsForever :
    ({ State.reset with mode := .running, pc := 0xFF } : State).mode = .running ∧
    ∀ x : Byte, ({ State.reset with mode := .running, pc := 0xFF } : State).memRead x = 0x00 := ⟨rfl, fun _ => rfl⟩

/-- The flag map that swaps LESS and EQUAL of the default one. -/
def otherFlags : FlagMap := ⟨0x01, 0x02, 0x04⟩

/-- CompareAndBranchUnderEveryFlagMap: a valid map, registers in each order, `fl` at and beside EQUAL, an ill-formed instruction. -/
theorem witness_CompareAndBranchUnderEveryFlagMap :
    otherFlags.Valid ∧
    ([(0, 7), (7, 0), (7, 7)] : List (Byte × Byte)).map
      (fun x => (nextOf (execWith otherFlags (.compare x.1 x.2) State.reset)).map State.fl) =
      [some otherFlags.less, some otherFlags.greater, some otherFlags.equal] ∧
    (nextOf (execWith otherFlags (.jumpEqual 7) (State.reset.setFl otherFlags.equal))).map State.pc = some 0xF4 ∧
    (nextOf (execWith otherFlags (.jumpEqual 7) (State.reset.setFl otherFlags.less))).map State.pc = some 0x02 ∧
    (nextOf (execWith otherFlags (.jumpNotEqual 8) State.reset)).map State.mode = some .faulted := by decide

/-- FlagAssignmentIsUnobservable: states in RUNNING that code an equal COMPARE in two ways and step, and the stop at reset. -/
theorem witness_FlagAssignmentIsUnobservable :
    defaultFlags.Valid ∧ otherFlags.Valid ∧
    AgreeButForFlagCoding defaultFlags otherFlags ((start 9 0x55 7 0).setFl 0x01) ((start 9 0x55 7 0).setFl 0x04) ∧
    (∃ t, stepWith ⟨defaultOpcodes, defaultFlags⟩ ((start 9 0x55 7 0).setFl 0x01) = .next t ∧ t.pc = 0xF4) ∧
    stepWith ⟨defaultOpcodes, defaultFlags⟩ State.reset = .fault .notStarted :=
  ⟨by decide, by decide, ⟨.inr (.inr (.inr ⟨rfl, rfl⟩)), fun _ => rfl, rfl, rfl, rfl, rfl, rfl⟩, ⟨_, rfl, by decide⟩, rfl⟩

/-- ExecIsTheDefaultMachine: an instruction that no flag map touches. -/
theorem witness_ExecIsTheDefaultMachine :
    (∀ a b, Instr.jump 7 ≠ .compare a b) ∧ ∀ a, Instr.jump 7 ≠ .jumpEqual a ∧ Instr.jump 7 ≠ .jumpNotEqual a :=
  ⟨nofun, fun _ => ⟨nofun, nofun⟩⟩

/-- PlacedWordIsTheNextInstruction, with a word shorter than its instruction. -/
theorem witness_PlacedWordIsTheNextInstruction :
    decodeTableWord 8 0x82 = some (.loadImmediate 0 0) ∧ ∃ t, step (State.reset.withFetchWord 8 0x82) = .next t := ⟨by decide, _, rfl⟩

end Sys2Proof.Tests
end

section
/-! PROOFS. Decoder and encoder against the bytes of a fetch (spec/30_encoding.md R60, R67). The one idea: three fetched bytes decode
to an instruction exactly when they begin with its encoding. -/

namespace Sys2Proof

open Machine

/-! ### What decodes to an instruction -/

/-- Assembling a row's two candidate bytes gives the instruction exactly when its operand bytes are the first of them (R61, R63). -/
theorem assemble_eq_iff_operands_isPrefix (i : Instr) (a b : Byte) : assemble i.opcode a b = i ↔ i.operands <+: [a, b] := by
  cases i <;> simp [Instr.opcode, Instr.operands, assemble, eq_comm]

/-- The whole opcode byte fixes the row, and the operand bytes fill it in (R63, R67). -/
theorem decodeWith_eq_instr_iff {m : OpcodeMap} (hm : m.Distinct) (w : Fetched) (i : Instr) :
    decodeWith m w = .instr i ↔ m.byte i.opcode = w.ir ∧ assemble i.opcode w.a w.b = i := by
  constructor
  · intro h
    rcases decodeWith_cases m w with ⟨op, hop, hd⟩ | ⟨-, hd⟩
    · obtain rfl : assemble op w.a w.b = i := by simpa [hd] using h
      simp [hop]
    · simp [hd] at h
  · rintro ⟨hir, ha⟩
    rw [decodeWith_of_lookup (hir ▸ OpcodeMap.lookup_byte hm i.opcode), ha]

theorem decodeWith_eq_instr_iff_encodeWith_isPrefix {m : OpcodeMap} (hm : m.Distinct) (w : Fetched) (i : Instr) :
    decodeWith m w = .instr i ↔ encodeWith m i <+: w.toList := by
  rw [decodeWith_eq_instr_iff hm, assemble_eq_iff_operands_isPrefix, encodeWith_eq, Fetched.toList, List.cons_prefix_cons]

/-! ### Where the bytes stand -/

theorem encodeWith_length (m : OpcodeMap) (i : Instr) : (encodeWith m i).length = 1 + i.opcode.operandCount := by
  rw [encodeWith_eq, List.length_cons, operands_length, Nat.add_comm]

theorem Opcode.operandCount_le_two (op : Opcode) : op.operandCount ≤ 2 := by cases op <;> decide

theorem encodeWith_length_le_three (m : OpcodeMap) (i : Instr) : (encodeWith m i).length ≤ 3 := by
  have := i.opcode.operandCount_le_two
  rw [encodeWith_length]
  omega

/-- Byte `j` of a fetch is the memory byte at `pc + j`, modulo 256. -/
theorem fetch_toList_getElem (s : State) (j : Nat) (hj : j < s.fetch.toList.length) :
    s.fetch.toList[j] = s.memRead (s.pc + BitVec.ofNat 8 j) :=
  match j, hj with
  | 0, _ => by simp [Fetched.toList, State.fetch]
  | 1, _ => rfl
  | 2, _ => rfl

/-- The fetch begins with at most three given bytes exactly when each stands in memory at its offset from `pc`. -/
theorem isPrefix_fetch_iff (s : State) {bs : List Byte} (hlen : bs.length ≤ 3) :
    bs <+: s.fetch.toList ↔ ∀ j, j < bs.length → s.memRead (s.pc + BitVec.ofNat 8 j) = bs.getD j 0 := by
  have hfetch : bs.length ≤ s.fetch.toList.length := hlen
  simp only [List.prefix_iff_getElem, hfetch, exists_true_left, fetch_toList_getElem]
  refine forall₂_congr fun j hj => ?_
  rw [List.getD_eq_getElem _ _ hj, eq_comm]

/-! ### The obligations -/

/-- Settles O4: the decoder's two cases, with the row unique because the opcode bytes are distinct. -/
theorem decoderMatchesTheWholeOpcodeByte : Obligations.DecoderMatchesTheWholeOpcodeByte := by
  intro m hm w
  rcases decodeWith_cases m w with ⟨op, hop, hd⟩ | hundefined
  · exact .inl ⟨op, hop, fun _ hop' => OpcodeMap.byte_inj hm (hop'.trans hop.symm), _, hd, assemble_opcode op w.a w.b⟩
  · exact .inr hundefined

/-- Settles O7: a fetch decodes to an instruction when it begins with its encoding, and the fetch reads byte `j` at `pc + j`. -/
theorem instructionBytesStandAtThePc : Obligations.InstructionBytesStandAtThePc := by
  intro m hm i s
  have hlen := encodeWith_length m i
  have hle := encodeWith_length_le_three m i
  refine ⟨hlen, by omega, hle, by rw [encodeWith_eq, List.getD_cons_zero], ?_⟩
  rw [decodeWith_eq_instr_iff_encodeWith_isPrefix hm, isPrefix_fetch_iff s hle]

end Sys2Proof
end

section
/-! PROOFS. Where each step leaves `pc` (spec/40_execution_loop.md R83, R84). A meaning ends by advancing `pc` from the state at the
start of the step, by jumping, or (HALT) by leaving it; its `_next` lemma (Laws/Exec.lean) says which. -/

namespace Sys2Proof.Machine

/-! ### How an update that ends a meaning moves `pc` -/

theorem State.toNat_pc_advance (s : State) (n : Byte) : (s.advance n).pc.toNat = (s.pc.toNat + n.toNat) % 256 :=
  BitVec.toNat_add s.pc n

/-- An outcome holds one next state. -/
theorem Result.next_unique {o : Result} {t u : State} (ht : o = .next t) (hu : o = .next u) : t = u :=
  Host.Outcome.next.inj (ht.symm.trans hu)

/-- A meaning that leaves `pc` alone and then advances it: `pc` moves by the advance, modulo 256. -/
theorem Result.toNat_pc_of_advance {o : Result} {s t u : State} {n : Byte} (ht : o = .next t) (hu : o = .next (u.advance n))
    (hpc : u.pc = s.pc) : t.pc.toNat = (s.pc.toNat + n.toNat) % 256 := by
  rw [Result.next_unique ht hu, State.toNat_pc_advance, hpc]

theorem Result.pc_of_jumpTo {o : Result} {t u : State} {v : Byte} (ht : o = .next t) (hu : o = .next (u.jumpTo v)) : t.pc = v := by
  rw [Result.next_unique ht hu, State.jumpTo_pc]

/-- The register byte of a well-formed instruction with one register operand names a register. -/
theorem exists_reg_of_wellFormed {a : Byte} (hw : ∀ k ∈ [a], k.toNat ≤ 7) : ∃ d : RegIdx, a.toNat = d.val :=
  exists_reg_of_le (hw a (by simp))

/-- The register bytes of a well-formed instruction with two register operands name registers. -/
theorem exists_regs_of_wellFormed {a b : Byte} (hw : ∀ k ∈ [a, b], k.toNat ≤ 7) :
    ∃ d r : RegIdx, a.toNat = d.val ∧ b.toNat = r.val := by
  obtain ⟨d, ha⟩ := exists_reg_of_le (hw a (by simp))
  obtain ⟨r, hb⟩ := exists_reg_of_le (hw b (by simp))
  exact ⟨d, r, ha, hb⟩

/-! ### The undefined opcode -/

theorem stepWith_of_undefinedOpcode {c : Params} {s : State} (hrun : s.mode = .running)
    (hir : ∀ op, c.opcodes.byte op ≠ s.memRead s.pc) : stepWith c s = .next (s.advance 1) := by
  rw [stepWith_running hrun, decodeWith_undefined (w := s.fetch) hir, runDecoded, execUndefinedOpcode]

theorem State.keeps_advance (s : State) (n : Byte) : Keeps s (s.advance n) [] [] := ⟨fun _ _ => rfl, fun _ _ => rfl⟩

/-! ### The obligations -/

/-- Settles O9: the step is `advance 1`, which writes `pc` only. -/
theorem undefinedOpcodeIsAOneByteNoOp : Obligations.UndefinedOpcodeIsAOneByteNoOp := fun _ s hrun hir =>
  ⟨s.advance 1, stepWith_of_undefinedOpcode hrun hir, s.toNat_pc_advance 1, s.keeps_advance 1, rfl, rfl, rfl, rfl⟩

/-- Settles O35, one case per instruction: the register bytes name registers, so the instruction's `_next` lemma gives the one next
state, and its last update says where `pc` goes. -/
theorem pcAdvancesByOnePlusOperandCount : Obligations.PcAdvancesByOnePlusOperandCount := by
  intro i s t hw h
  cases i with
  | halt =>
    obtain rfl := Result.next_unique h (execHalt_next s)
    rfl
  | loadImmediate a imm =>
    obtain ⟨d, ha⟩ := exists_reg_of_wellFormed hw
    exact Result.toNat_pc_of_advance h (execLoadImmediate_next ha imm s) rfl
  | printReg a =>
    obtain ⟨d, ha⟩ := exists_reg_of_wellFormed hw
    exact Result.toNat_pc_of_advance h (execPrintReg_next ha s) rfl
  | add a b =>
    obtain ⟨d, r, ha, hb⟩ := exists_regs_of_wellFormed hw
    exact Result.toNat_pc_of_advance h (execAdd_next ha hb s) rfl
  | multiply a b =>
    obtain ⟨d, r, ha, hb⟩ := exists_regs_of_wellFormed hw
    exact Result.toNat_pc_of_advance h (execMultiply_next ha hb s) rfl
  | push a =>
    obtain ⟨d, ha⟩ := exists_reg_of_wellFormed hw
    exact Result.toNat_pc_of_advance h (execPush_next ha s) rfl
  | pop a =>
    obtain ⟨d, ha⟩ := exists_reg_of_wellFormed hw
    exact Result.toNat_pc_of_advance h (execPop_next ha s) rfl
  | call a =>
    obtain ⟨d, ha⟩ := exists_reg_of_wellFormed hw
    obtain rfl := Result.next_unique h (execCall_next ha s)
    exact ⟨d, ha, rfl⟩
  | ret =>
    obtain rfl := Result.next_unique h (execRet_next s)
    rfl
  | compare a b =>
    obtain ⟨d, r, ha, hb⟩ := exists_regs_of_wellFormed hw
    exact Result.toNat_pc_of_advance h (execCompare_next ha hb s) rfl
  | jumpEqual a =>
    obtain ⟨d, ha⟩ := exists_reg_of_wellFormed hw
    dsimp only
    split
    next hf => exact ⟨d, ha, Result.pc_of_jumpTo h (execJumpEqual_taken ha hf)⟩
    next hf => exact Result.toNat_pc_of_advance h (execJumpEqual_fallsThrough ha hf) rfl
  | jump a =>
    obtain ⟨d, ha⟩ := exists_reg_of_wellFormed hw
    exact ⟨d, ha, Result.pc_of_jumpTo h (execJump_next ha s)⟩
  | jumpNotEqual a =>
    obtain ⟨d, ha⟩ := exists_reg_of_wellFormed hw
    dsimp only
    split
    next hf => exact Result.toNat_pc_of_advance h (execJumpNotEqual_fallsThrough ha hf) rfl
    next hf => exact ⟨d, ha, Result.pc_of_jumpTo h (execJumpNotEqual_taken ha hf)⟩

end Sys2Proof.Machine
end

section
/-! PROOFS. LOAD_IMMEDIATE (spec/41_halt_load_print.md R91). Its meaning is `withReg` around one register write and an advance: the
register byte names a register and that state is next, or it is above 7 and the fault entry is. -/

namespace Sys2Proof.Machine

/-- LOAD_IMMEDIATE's arm of the dispatch. -/
theorem exec_loadImmediate (a imm : Byte) (s : State) : exec (.loadImmediate a imm) s = execLoadImmediate a imm s := rfl

/-! ### The fault entry for a bad register index -/

theorem State.takesInvalidRegisterIndex_enterFault (s : State) (k : Byte) :
    TakesInvalidRegisterIndex s (s.enterFault (.invalidRegisterIndex k)) :=
  ⟨rfl, rfl, fun _ => rfl, rfl, rfl, rfl, rfl⟩

/-- A body with one register operand is not run when the register byte is above 7: the exception is taken from the state at the start
of the step (R162, R163). -/
theorem withReg_takesInvalidRegisterIndex {a : Byte} (ha : 7 < a.toNat) (s : State) (body : RegIdx → Result) :
    ∃ t, withReg a s body = .next t ∧ TakesInvalidRegisterIndex s t :=
  ⟨_, withReg_error ha s body, s.takesInvalidRegisterIndex_enterFault a⟩

/-! ### The frame of a register write -/

/-- Writing one register and then advancing keeps every other register and every memory cell. -/
theorem State.keeps_advance_setReg (s : State) (d : RegIdx) (v n : Byte) : Keeps s ((s.setReg d v).advance n) [d] [] where
  reg _ hk := s.reg_setReg_ne (List.ne_of_not_mem_cons hk) v
  memRead _ _ := rfl

/-! ### The obligation -/

/-- Settles O12: the encoding is LOAD_IMMEDIATE's row; a byte naming a register writes the immediate there and advances by 3, and a
byte above 7 stops at the register check. -/
theorem loadImmediateWritesTheByte : Obligations.LoadImmediateWritesTheByte := by
  intro a imm s
  rw [exec_loadImmediate]
  refine ⟨fun m => encodeWith_eq m _, fun d ha => ?_, fun ha => withReg_takesInvalidRegisterIndex ha s _⟩
  exact ⟨(s.setReg d imm).advance 3, execLoadImmediate_next ha imm s, s.reg_setReg_same d imm,
    (s.setReg d imm).toNat_pc_advance 3, s.keeps_advance_setReg d imm 3, rfl, rfl, rfl, rfl⟩

end Sys2Proof.Machine
end

section
/-! PROOFS. ADD and MULTIPLY (spec/42_alu.md R101, R102). Both meanings are `execAlu` at their operation: with both bytes naming
registers it writes the ALU's value to the first one and advances by 3; otherwise the register check stops it. The two
instructions differ only in the ALU's value. -/

namespace Sys2Proof.Machine

/-- ADD's arm of the dispatch. -/
theorem exec_add (a b : Byte) (s : State) : exec (.add a b) s = execAlu .add a b s := rfl

/-- MULTIPLY's arm of the dispatch. -/
theorem exec_multiply (a b : Byte) (s : State) : exec (.multiply a b) s = execAlu .multiply a b s := rfl

/-! ### A bad register byte among two -/

/-- The check reports `a` when `a` is above 7, else `b` (R168). -/
theorem checkRegs_error {a b : Byte} (h : 7 < a.toNat ∨ 7 < b.toNat) :
    checkRegs a b = .error (.invalidRegisterIndex (if 7 < a.toNat then a else b)) := by
  split
  next ha => exact checkRegs_error_left ha
  next ha =>
    obtain ⟨d, hd⟩ := exists_reg_of_le (Nat.not_lt.1 ha)
    exact checkRegs_error_right hd (h.resolve_left ha)

theorem withRegs_error {a b : Byte} {e : Exn} (h : checkRegs a b = .error e) (s : State) (body : RegIdx → RegIdx → Result) :
    withRegs a b s body = .next (s.enterFault e) := by
  simp only [withRegs, h, raiseExn]

/-- A body with two register operands is not run when one of the register bytes is above 7. -/
theorem withRegs_takesInvalidRegisterIndex {a b : Byte} (h : 7 < a.toNat ∨ 7 < b.toNat) (s : State)
    (body : RegIdx → RegIdx → Result) : ∃ t, withRegs a b s body = .next t ∧ TakesInvalidRegisterIndex s t :=
  ⟨_, withRegs_error (checkRegs_error h) s body, s.takesInvalidRegisterIndex_enterFault _⟩

/-! ### The ALU's value is written to the first register -/

theorem alu_of_aluResult {op : AluOp} {d r : RegIdx} {s : State} {v : Byte} (hv : aluResult op (s.reg d) (s.reg r) = .ok v) :
    alu op d r s = .ok (s.setReg d v) := by
  rw [alu, hv]

theorem execAlu_next {op : AluOp} {a b : Byte} {d r : RegIdx} {s : State} {v : Byte} (ha : a.toNat = d.val) (hb : b.toNat = r.val)
    (hv : aluResult op (s.reg d) (s.reg r) = .ok v) : execAlu op a b s = .next ((s.setReg d v).advance 3) := by
  rw [execAlu, withRegs_ok ha hb, alu_of_aluResult hv]

/-- What an ALU instruction does when its bytes name registers, with the value written given as a number. -/
theorem execAlu_writes_value {op : AluOp} {a b : Byte} {d r : RegIdx} {s : State} {v : Byte} {n : Nat} (ha : a.toNat = d.val)
    (hb : b.toNat = r.val) (hv : aluResult op (s.reg d) (s.reg r) = .ok v) (hn : v.toNat = n) :
    ∃ t, execAlu op a b s = .next t ∧ (t.reg d).toNat = n ∧ t.pc.toNat = (s.pc.toNat + 3) % 256 ∧ Keeps s t [d] [] ∧
      t.fl = s.fl ∧ t.mode = s.mode ∧ t.faultCause = s.faultCause ∧ t.out = s.out := by
  refine ⟨(s.setReg d v).advance 3, execAlu_next ha hb hv, ?_, (s.setReg d v).toNat_pc_advance 3, s.keeps_advance_setReg d v 3,
    rfl, rfl, rfl, rfl⟩
  rw [State.reg_advance, State.reg_setReg_same, hn]

/-! ### The obligations -/

/-- Settles O14: the ALU's value is the byte sum, which wraps modulo 256; a byte above 7 stops at the register check. -/
theorem addIsTheSumModulo256 : Obligations.AddIsTheSumModulo256 := by
  intro a b s
  rw [exec_add]
  refine ⟨fun m => encodeWith_eq m _, fun d r ha hb => ?_, fun h => ?_⟩
  · exact execAlu_writes_value ha hb (aluResult_add _ _) (BitVec.toNat_add _ _)
  · exact ⟨withRegs_takesInvalidRegisterIndex h s _, checkRegs_error h⟩

/-- Settles O15: the ALU's value is the byte product, which wraps modulo 256; a byte above 7 stops at the register check. -/
theorem multiplyIsTheProductModulo256 : Obligations.MultiplyIsTheProductModulo256 := by
  intro a b s
  rw [exec_multiply]
  refine ⟨fun m => encodeWith_eq m _, fun d r ha hb => ?_, fun h => ?_⟩
  · exact execAlu_writes_value ha hb (aluResult_multiply _ _) (BitVec.toNat_mul _ _)
  · exact ⟨withRegs_takesInvalidRegisterIndex h s _, checkRegs_error h⟩

end Sys2Proof.Machine
end

section
/-! PROOFS. RETURN (spec/44_subroutine.md R121). Its meaning is a jump to the byte at the old `sp` and then a write of `sp`, with no
register byte to check: it answers one next state from every state. -/

namespace Sys2Proof.Machine

/-- RETURN's arm of the dispatch. -/
theorem exec_ret (s : State) : exec .ret s = execRet s := rfl

/-- Jumping and then writing `sp` keeps every register but `sp` and every memory cell. -/
theorem State.keeps_setSp_jumpTo (s : State) (target v : Byte) : Keeps s ((s.jumpTo target).setSp v) [Config.spIndex] [] where
  reg _ hk := (s.jumpTo target).reg_setReg_ne (List.ne_of_not_mem_cons hk) v
  memRead _ _ := rfl

/-! ### The obligation -/

/-- Settles O19: the next state is `execRet_next`'s; the new `sp` is the byte sum `sp + 1`, which wraps modulo 256. -/
theorem returnPopsThePc : Obligations.ReturnPopsThePc := by
  intro s
  refine ⟨fun m => encodeWith_eq m _, (s.jumpTo (s.memRead s.popAddress)).setSp (s.sp + 1), ?_⟩
  have hsp : ((s.jumpTo (s.memRead s.popAddress)).setSp (s.sp + 1)).sp.toNat = (s.sp.toNat + 1) % 256 := by
    rw [State.sp_setSp]
    exact BitVec.toNat_add s.sp 1
  rw [exec_ret]
  exact ⟨execRet_next s, rfl, hsp, s.keeps_setSp_jumpTo _ _, rfl, rfl, rfl, rfl⟩

end Sys2Proof.Machine
end

section
/-! PROOFS. COMPARE, JUMP_EQUAL, JUMP and JUMP_NOT_EQUAL (spec/45_compare_and_jump.md R130 to R134). COMPARE replaces `fl` by the
comparator's value and advances by 3; a jump either sets `pc` to the register or advances by 2, by whether `fl` is EQUAL. Which of the
three values stands in `fl` says which relation holds because the values of a valid flag map are distinct (spec/00_scope.md R7). -/

namespace Sys2Proof.Machine

/-! ### Arms of the dispatch -/

theorem exec_compare (a b : Byte) (s : State) : exec (.compare a b) s = execCompare a b s := rfl

theorem exec_jumpEqual (a : Byte) (s : State) : exec (.jumpEqual a) s = execJumpEqual a s := rfl

theorem exec_jump (a : Byte) (s : State) : exec (.jump a) s = execJump a s := rfl

theorem exec_jumpNotEqual (a : Byte) (s : State) : exec (.jumpNotEqual a) s = execJumpNotEqual a s := rfl

/-! ### The values of a valid flag map -/

theorem flagMap_pairwise_ne {p : FlagMap} (hp : p.Valid) : p.less ≠ p.greater ∧ p.less ≠ p.equal ∧ p.greater ≠ p.equal := by
  simpa [and_assoc] using hp.2

/-- A value of `fl` that says "no COMPARE yet", GREATER or LESS is not EQUAL: the rows of R134's table exclude one another. -/
theorem ne_equal_of_other_outcome {p : FlagMap} (hp : p.Valid) {fl : Byte} (h : fl = 0x00 ∨ fl = p.greater ∨ fl = p.less) :
    fl ≠ p.equal := by
  obtain ⟨-, hle, hge⟩ := flagMap_pairwise_ne hp
  rcases h with rfl | rfl | rfl
  · intro hzero
    exact absurd (hp.1 p.equal (by simp)) (hzero ▸ by decide)
  · exact hge
  · exact hle

/-- The comparator's value tells the order of its operands. -/
theorem compareFlags_eq_iff {p : FlagMap} (hp : p.Valid) (u v : Byte) :
    (compareFlags p u v = p.less ↔ u.toNat < v.toNat) ∧ (compareFlags p u v = p.greater ↔ v.toNat < u.toNat) ∧
    (compareFlags p u v = p.equal ↔ u.toNat = v.toNat) := by
  obtain ⟨hlg, hle, hge⟩ := flagMap_pairwise_ne hp
  rcases compareFlags_cases p u v with ⟨h, hf⟩ | ⟨h, hf⟩ | ⟨rfl, -⟩
  · simp [hf, hlg, hle, h, h.le, h.ne]
  · simp [hf, hlg.symm, hge, h, h.le, h.ne']
  · simp [hle.symm, hge.symm]

/-- Bits 7 to 3 of the comparator's value are 0. -/
theorem compareFlags_toNat_div_eight {p : FlagMap} (hp : p.Valid) (u v : Byte) : (compareFlags p u v).toNat / 8 = 0 := by
  have hmem : compareFlags p u v ∈ [p.less, p.greater, p.equal] := by
    rcases compareFlags_cases p u v with ⟨-, hf⟩ | ⟨-, hf⟩ | ⟨-, hf⟩ <;> simp [hf]
  have hsmall : ∀ x ∈ ([0x01, 0x02, 0x04] : List Byte), x.toNat / 8 = 0 := by decide
  exact hsmall _ (hp.1 _ hmem)

/-! ### Frames -/

theorem State.keeps_advance_setFl (s : State) (v n : Byte) : Keeps s ((s.setFl v).advance n) [] [] := ⟨fun _ _ => rfl, fun _ _ => rfl⟩

theorem State.keeps_jumpTo (s : State) (target : Byte) : Keeps s (s.jumpTo target) [] [] := ⟨fun _ _ => rfl, fun _ _ => rfl⟩

/-! ### The obligations -/

/-- Settles O20: `fl` becomes the comparator's value, one of the three by the unsigned order; a byte above 7 stops at the register
check. -/
theorem compareSetsExactlyOneFlag : Obligations.CompareSetsExactlyOneFlag := by
  intro a b s
  rw [exec_compare]
  refine ⟨fun m => encodeWith_eq m _, fun p q ha hb => ?_, fun h => ?_⟩
  · obtain ⟨hless, hgreater, hequal⟩ := compareFlags_eq_iff defaultFlags_valid (s.reg p) (s.reg q)
    exact ⟨_, execCompare_next ha hb s, hless.2, hgreater.2, hequal.2, compareFlags_toNat_div_eight defaultFlags_valid _ _,
      State.toNat_pc_advance _ 3, s.keeps_advance_setFl _ 3, rfl, rfl, rfl⟩
  · exact ⟨withRegs_takesInvalidRegisterIndex h s _, checkRegs_error h⟩

/-- Settles O21: with a byte naming a register the step is `jumpTo` its value, which writes `pc` only; a byte above 7 stops at the
register check. -/
theorem jumpAlwaysTransfersControl : Obligations.JumpAlwaysTransfersControl := by
  intro a s
  rw [exec_jump]
  refine ⟨fun m => encodeWith_eq m _, fun d ha => ?_, fun ha => withReg_takesInvalidRegisterIndex ha s _⟩
  exact ⟨_, execJump_next ha s, rfl, s.keeps_jumpTo _, rfl, rfl, rfl, rfl⟩

/-- Settles O22: `fl` after COMPARE is the comparator's value, which tells the relation; whether `fl` is EQUAL decides both conditional
jumps, in opposite ways. -/
theorem compareAndBranchLaws : Obligations.CompareAndBranchLaws := by
  refine ⟨fun a b s p q ha hb => ?_, fun a s d ha => ?_⟩
  · obtain ⟨hless, hgreater, hequal⟩ := compareFlags_eq_iff defaultFlags_valid (s.reg p) (s.reg q)
    rw [exec_compare]
    exact ⟨_, execCompare_next ha hb s, hequal.symm, hgreater.symm, hless.symm⟩
  · rw [exec_jumpEqual, exec_jumpNotEqual, exec_jump]
    by_cases hfl : s.fl = defaultFlags.equal
    · exact ⟨_, _, _, execJumpEqual_taken ha hfl, execJumpNotEqual_fallsThrough ha hfl, execJump_next ha s,
        fun _ => ⟨rfl, s.toNat_pc_advance 2⟩, fun hother => absurd hfl (ne_equal_of_other_outcome defaultFlags_valid hother), rfl,
        s.keeps_jumpTo _, rfl, rfl, rfl, rfl, s.keeps_advance 2, rfl, rfl, rfl, rfl⟩
    · exact ⟨_, _, _, execJumpEqual_fallsThrough ha hfl, execJumpNotEqual_taken ha hfl, execJump_next ha s,
        fun hequal => absurd hequal hfl, fun _ => ⟨s.toNat_pc_advance 2, rfl⟩, rfl,
        s.keeps_advance 2, rfl, rfl, rfl, rfl, s.keeps_jumpTo _, rfl, rfl, rfl, rfl⟩

end Sys2Proof.Machine
end

section
/-! PROOFS. The reset move (spec/70_reset_and_hazards.md R180): its state is `State.reset` whatever it starts from, and what the
observers `reg`, `sp` and `memRead` see of that state. -/

namespace Sys2Proof.Machine

@[simp] theorem hostReset_eq (s : State) : hostReset s = State.reset := rfl

/-- Register 7 starts at `SP_RESET` and every other register at 0 (R5, R180). -/
theorem State.reg_reset (k : RegIdx) : State.reset.reg k = if k = Config.spIndex then Config.spReset else 0x00 := by
  revert k
  decide

/-- The reset memory lists no cell, so every cell reads as `Memory.unlisted`. -/
@[simp] theorem State.memRead_reset (x : Byte) : State.reset.memRead x = 0x00 := rfl

/-! ### The obligation -/

/-- Settles O1: the reset move answers `State.reset` from every state, and each clause is what one observer sees there. -/
theorem resetGivesTheResetState : Obligations.ResetGivesTheResetState := by
  intro s
  rw [hostReset_eq]
  have hothers (k : RegIdx) (hk : k ≠ 7) : State.reset.reg k = 0x00 := (State.reg_reset k).trans (if_neg hk)
  have hseven : State.reset.reg 7 = 0xF4 := (State.reg_reset 7).trans (if_pos rfl)
  have hcause : State.reset.faultCause.code = 0 := congrArg FaultCause.code State.reset_faultCause
  exact ⟨hothers, hseven, rfl, State.reset_pc, State.reset_fl, State.reset_mode, hcause, State.memRead_reset, State.reset_out, rfl⟩

end Sys2Proof.Machine
end

section
/-! PROOFS. The round trip between instructions and bytes, and how many byte values no row claims (spec/30_encoding.md R60, R67, R68).
An encoding is the row's byte and then the operand bytes; the decoder looks the byte up and assembles the operands again. -/

namespace Sys2Proof

open Machine

/-! ### Operand bytes -/

/-- Assembling an instruction's operand bytes gives it back, whatever bytes follow: those it has no operand for are ignored (R63). -/
theorem assemble_operands_append (i : Instr) (rest : List Byte) :
    assemble i.opcode ((i.operands ++ rest).getD 0 0) ((i.operands ++ rest).getD 1 0) = i := by
  cases i <;> rfl

/-- The operand bytes of an assembled instruction are the first of the two candidates, as many as the row takes (R61). -/
theorem operands_assemble (op : Opcode) (a b : Byte) : (assemble op a b).operands = [a, b].take op.operandCount := by
  cases op <;> rfl

theorem Fetched.ofList_cons (b : Byte) (bs : List Byte) : Fetched.ofList (b :: bs) = ⟨b, bs.getD 0 0, bs.getD 1 0⟩ := rfl

/-! ### Counting the rows -/

theorem OpcodeMap.isSome_lookup_iff (m : OpcodeMap) (ir : Byte) : (m.lookup ir).isSome = true ↔ ∃ op, m.byte op = ir := by
  rw [Option.isSome_iff_ne_none, ne_eq, OpcodeMap.lookup_eq_none]
  push Not
  rfl

/-- The byte values that match a row are, up to order, the bytes of the rows. -/
theorem OpcodeMap.defined_perm_bytes {m : OpcodeMap} (hm : m.Distinct) :
    ((List.range 256).filter fun n => (m.lookup (BitVec.ofNat 8 n)).isSome).Perm (Opcode.all.map fun op => (m.byte op).toNat) := by
  have hnodup : (Opcode.all.map fun op => (m.byte op).toNat).Nodup := by
    have hmapped := hm.map (f := BitVec.toNat) fun _ _ => BitVec.eq_of_toNat_eq
    rwa [List.map_map] at hmapped
  rw [List.perm_ext_iff_of_nodup (List.nodup_range.filter _) hnodup]
  intro n
  simp only [List.mem_filter, List.mem_range, OpcodeMap.isSome_lookup_iff, List.mem_map, Opcode.mem_all, true_and]
  constructor
  · rintro ⟨hn, op, hop⟩
    exact ⟨op, by rw [hop, BitVec.toNat_ofNat, Nat.mod_eq_of_lt hn]⟩
  · rintro ⟨op, rfl⟩
    exact ⟨(m.byte op).isLt, op, (BitVec.ofNat_toNat 8 (m.byte op)).symm⟩

/-! ### The obligations -/

/-- Settles O2: the lookup finds the row of the encoding's first byte because the bytes are distinct, and the row's operand bytes stand
next. -/
theorem decodeOfEncodeIsTheInstruction : Obligations.DecodeOfEncodeIsTheInstruction := by
  intro m hm i rest
  rw [encodeWith_eq, List.cons_append, Fetched.ofList_cons, decodeWith_eq_instr_iff hm]
  exact ⟨rfl, assemble_operands_append i rest⟩

/-- Settles O3: the decoder's two cases; an assembled instruction has the row's byte and the operand bytes it was assembled from. -/
theorem encodeOfDecodeIsTheFetchedBytes : Obligations.EncodeOfDecodeIsTheFetchedBytes := by
  intro m w
  rcases decodeWith_cases m w with ⟨op, hop, hd⟩ | ⟨hnone, hd⟩
  · refine ⟨fun i hi => ?_, fun ir hir => nomatch hd.symm.trans hir⟩
    obtain rfl := Decoded.instr.inj (hd.symm.trans hi)
    rw [encodeWith_eq, assemble_opcode, hop, operands_assemble, Opcode.length, Nat.add_comm, Fetched.toList, List.take_succ_cons]
  · refine ⟨fun i hi => (nomatch hd.symm.trans hi), fun ir hir => ?_⟩
    obtain rfl := Decoded.undefinedOpcode.inj (hd.symm.trans hir)
    exact ⟨rfl, hnone⟩

/-- Settles O5: of the 256 byte values the 13 distinct row bytes are the ones with a row, and the rest have none. -/
theorem undefinedOpcodesAre243 : Obligations.UndefinedOpcodesAre243 := by
  intro m hm
  have hsplit := List.length_eq_length_filter_add (l := List.range 256) fun n => (m.lookup (BitVec.ofNat 8 n)).isSome
  have hdefined := (OpcodeMap.defined_perm_bytes hm).length_eq
  simp only [Option.not_isSome] at hsplit
  rw [hdefined, List.length_range, List.length_map] at hsplit
  have hrows : Opcode.all.length = 13 := rfl
  omega

/-- Settles O6: seven closed words, each decoded by evaluation under the default opcode map. -/
theorem defaultWordsDecode : Obligations.DefaultWordsDecode :=
  ⟨by decide, by decide, by decide, by decide, by decide, by decide, by decide⟩

end Sys2Proof
end

section
/-! PROOFS. The states PUSH, POP and CALL lead to (spec/43_stack.md R110, R111, spec/44_subroutine.md R120), each with a name and what
the observers see of it. Register 7 as the operand is the case the written order of effects decides (decision D12). -/

namespace Sys2Proof.Machine

/-! ### PUSH -/

/-- The state after PUSH of register `d`. -/
def State.pushed (s : State) (d : RegIdx) : State :=
  ((s.setSp s.pushAddress).memWrite s.pushAddress ((s.setSp s.pushAddress).reg d)).advance 2

theorem exec_push {a : Byte} {d : RegIdx} (ha : a.toNat = d.val) (s : State) : exec (.push a) s = .next (s.pushed d) :=
  execPush_next ha s

@[simp] theorem State.sp_pushed (s : State) (d : RegIdx) : (s.pushed d).sp = s.pushAddress := s.sp_setSp s.pushAddress

@[simp] theorem State.pushed_pc (s : State) (d : RegIdx) : (s.pushed d).pc = s.pc + 2 := rfl

theorem State.reg_pushed_ne (s : State) (d : RegIdx) {k : RegIdx} (h : k ≠ 7) : (s.pushed d).reg k = s.reg k :=
  s.reg_setReg_ne h s.pushAddress

/-- PUSH stores the register, and register 7 as it stands after the decrement. -/
theorem State.memRead_pushed_same (s : State) (d : RegIdx) :
    (s.pushed d).memRead s.pushAddress = if d = 7 then s.pushAddress else s.reg d :=
  (State.memRead_memWrite_same _ _ _).trans (s.reg_setSp d s.pushAddress)

theorem State.memRead_pushed_ne (s : State) (d : RegIdx) {x : Byte} (h : x ≠ s.pushAddress) :
    (s.pushed d).memRead x = s.memRead x := State.memRead_memWrite_ne _ h _

theorem State.keeps_pushed (s : State) (d : RegIdx) : Keeps s (s.pushed d) [7] [s.pushAddress] where
  reg _ hk := s.reg_pushed_ne d (List.ne_of_not_mem_cons hk)
  memRead _ hx := s.memRead_pushed_ne d (List.ne_of_not_mem_cons hx)

/-! ### POP -/

/-- The state after POP to register `d`. -/
def State.popped (s : State) (d : RegIdx) : State :=
  ((s.setReg d (s.memRead s.popAddress)).setSp ((s.setReg d (s.memRead s.popAddress)).sp + 1)).advance 2

theorem exec_pop {a : Byte} {d : RegIdx} (ha : a.toNat = d.val) (s : State) : exec (.pop a) s = .next (s.popped d) :=
  execPop_next ha s

@[simp] theorem State.popped_pc (s : State) (d : RegIdx) : (s.popped d).pc = s.pc + 2 := rfl

@[simp] theorem State.memRead_popped (s : State) (d : RegIdx) (x : Byte) : (s.popped d).memRead x = s.memRead x := rfl

theorem State.sp_popped (s : State) (d : RegIdx) : (s.popped d).sp = (if d = 7 then s.memRead s.sp else s.sp) + 1 := by
  have hsp : (s.popped d).sp = (s.setReg d (s.memRead s.sp)).sp + 1 := State.sp_setSp _ _
  rw [hsp, State.sp_setReg]
  simp only [eq_comm]

theorem State.reg_popped_same (s : State) {d : RegIdx} (h : d ≠ 7) : (s.popped d).reg d = s.memRead s.sp :=
  (State.reg_setReg_ne _ h _).trans (s.reg_setReg_same d _)

theorem State.reg_popped_ne (s : State) {d k : RegIdx} (hd : k ≠ d) (h7 : k ≠ 7) : (s.popped d).reg k = s.reg k :=
  (State.reg_setReg_ne _ h7 _).trans (s.reg_setReg_ne hd _)

theorem State.keeps_popped (s : State) (d : RegIdx) : Keeps s (s.popped d) [d, 7] [] where
  reg _ hk := by
    simp only [List.mem_cons, List.not_mem_nil, or_false, not_or] at hk
    exact s.reg_popped_ne hk.1 hk.2
  memRead _ _ := rfl

/-! ### CALL -/

/-- The state after CALL through register `d`. -/
def State.called (s : State) (d : RegIdx) : State :=
  ((s.memWrite s.pushAddress (s.pc + 2)).setSp s.pushAddress).jumpTo
    (((s.memWrite s.pushAddress (s.pc + 2)).setSp s.pushAddress).reg d)

theorem exec_call {a : Byte} {d : RegIdx} (ha : a.toNat = d.val) (s : State) : exec (.call a) s = .next (s.called d) :=
  execCall_next ha s

@[simp] theorem State.sp_called (s : State) (d : RegIdx) : (s.called d).sp = s.pushAddress := State.sp_setSp _ _

/-- CALL goes to the register, and to register 7 as it stands after the decrement. -/
theorem State.called_pc (s : State) (d : RegIdx) : (s.called d).pc = if d = 7 then s.pushAddress else s.reg d :=
  State.reg_setSp _ d s.pushAddress

theorem State.reg_called_ne (s : State) (d : RegIdx) {k : RegIdx} (h : k ≠ 7) : (s.called d).reg k = s.reg k :=
  State.reg_setReg_ne _ h _

@[simp] theorem State.memRead_called_same (s : State) (d : RegIdx) : (s.called d).memRead s.pushAddress = s.pc + 2 :=
  State.memRead_memWrite_same _ _ _

theorem State.memRead_called_ne (s : State) (d : RegIdx) {x : Byte} (h : x ≠ s.pushAddress) :
    (s.called d).memRead x = s.memRead x := State.memRead_memWrite_ne _ h _

theorem State.keeps_called (s : State) (d : RegIdx) : Keeps s (s.called d) [7] [s.pushAddress] where
  reg _ hk := s.reg_called_ne d (List.ne_of_not_mem_cons hk)
  memRead _ hx := s.memRead_called_ne d (List.ne_of_not_mem_cons hx)

/-! ### Addresses as numbers -/

theorem State.toNat_pushAddress (s : State) : s.pushAddress.toNat = (s.sp.toNat + 255) % 256 := by
  rw [State.pushAddress, BitVec.toNat_sub, Nat.add_comm]
  rfl

theorem State.pushAddress_add_one (s : State) : s.pushAddress + 1 = s.sp := BitVec.sub_add_cancel s.sp 1

/-! ### The obligations -/

/-- Settles O16: the next state is `pushed`. -/
theorem pushStoresBelowTheStackPointer : Obligations.PushStoresBelowTheStackPointer := fun _ s d ha =>
  ⟨s.pushed d, exec_push ha s, s.sp_pushed d, by rw [State.sp_pushed, State.toNat_pushAddress], s.memRead_pushed_same d,
    State.toNat_pc_advance _ 2, s.keeps_pushed d, rfl, rfl, rfl, rfl⟩

/-- Settles O17: the next state is `popped`; `sp` goes up from its old value, or for register 7 from the loaded byte. -/
theorem popLoadsFromTheStackPointer : Obligations.PopLoadsFromTheStackPointer := by
  intro a s d ha
  refine ⟨s.popped d, exec_pop ha s, fun hd => ⟨s.reg_popped_same hd, ?_⟩, fun hd => ?_, State.toNat_pc_advance _ 2,
    s.keeps_popped d, rfl, rfl, rfl, rfl⟩
  · rw [State.sp_popped, if_neg hd]
    exact BitVec.toNat_add s.sp 1
  · rw [State.sp_popped, if_pos hd]
    exact BitVec.toNat_add (s.memRead s.sp) 1

/-- Settles O18: the next state is `called`. -/
theorem callPushesTheReturnAddress : Obligations.CallPushesTheReturnAddress := fun _ s d ha =>
  ⟨s.called d, exec_call ha s, s.sp_called d, by rw [State.sp_called, State.toNat_pushAddress],
    by rw [State.memRead_called_same]; exact BitVec.toNat_add s.pc 2, s.called_pc d, s.keeps_called d, rfl, rfl, rfl, rfl⟩

/-- Settles O36: POP finds the byte PUSH stored at the new `sp`; for register 7 that byte is the decremented `sp`, which POP increments
back. -/
theorem pushThenPopRoundTrips : Obligations.PushThenPopRoundTrips := by
  intro a s d ha
  have hsp : ((s.pushed d).popped d).sp = s.sp := by
    rw [State.sp_popped, State.sp_pushed, State.memRead_pushed_same]
    split <;> exact s.pushAddress_add_one
  have hreg (k : RegIdx) : ((s.pushed d).popped d).reg k = s.reg k := by
    by_cases h7 : k = 7
    · subst h7
      exact hsp
    · by_cases hd : k = d
      · subst hd
        rw [State.reg_popped_same _ h7, State.sp_pushed, State.memRead_pushed_same, if_neg h7]
      · rw [State.reg_popped_ne _ hd h7, State.reg_pushed_ne _ _ h7]
  refine ⟨s.pushed d, (s.pushed d).popped d, exec_push ha s, exec_pop ha _, hreg, hsp, s.memRead_pushed_same d,
    fun x hx => s.memRead_pushed_ne d hx, ?_⟩
  rw [State.popped_pc, State.pushed_pc, BitVec.add_assoc]
  exact BitVec.toNat_add s.pc 4

/-- Settles O37: the first POP reads the byte of the second PUSH, and the second POP, one cell higher, the byte of the first, which the
second PUSH did not touch. -/
theorem twoPushesAndTwoPopsSwap : Obligations.TwoPushesAndTwoPopsSwap := by
  intro a b s d r ha hb hdr hd hr
  have hsp3 : (((s.pushed d).pushed r).popped d).sp = s.pushAddress := by
    rw [State.sp_popped, if_neg hd, State.sp_pushed, State.pushAddress_add_one, State.sp_pushed]
  have hfirst : (((s.pushed d).pushed r).popped d).reg d = s.reg r := by
    rw [State.reg_popped_same _ hd, State.sp_pushed, State.memRead_pushed_same, if_neg hr, State.reg_pushed_ne _ _ hr]
  have hcell : s.pushAddress ≠ (s.pushed d).pushAddress := by
    rw [State.pushAddress, State.pushAddress, State.sp_pushed, State.pushAddress]
    bv_omega
  have hsecond : (((s.pushed d).pushed r).popped d).memRead s.pushAddress = s.reg d := by
    rw [State.memRead_popped, State.memRead_pushed_ne _ _ hcell, State.memRead_pushed_same, if_neg hd]
  have hsp4 : ((((s.pushed d).pushed r).popped d).popped r).sp = s.sp := by
    rw [State.sp_popped, if_neg hr, hsp3, State.pushAddress_add_one]
  refine ⟨_, _, _, _, exec_push ha s, exec_push hb _, exec_pop ha _, exec_pop hb _, ?_, ?_, hsp4, fun k hkd hkr => ?_⟩
  · rw [State.reg_popped_ne _ hdr hd, hfirst]
  · rw [State.reg_popped_same _ hr, hsp3, hsecond]
  · by_cases h7 : k = 7
    · subst h7
      exact hsp4
    · rw [State.reg_popped_ne _ hkr h7, State.reg_popped_ne _ hkd h7, State.reg_pushed_ne _ _ h7, State.reg_pushed_ne _ _ h7]

/-- Settles O38: RETURN reads the byte at `sp`, which is still CALL's return address, and increments `sp` back. -/
theorem callThenReturnResumes : Obligations.CallThenReturnResumes := by
  intro a s t u d ha ht hsp hbyte
  obtain rfl := Result.next_unique ht (exec_call ha s)
  have hpc : u.memRead u.sp = s.pc + 2 := by rw [hbyte, State.sp_called, State.memRead_called_same]
  refine ⟨_, execRet_next u, ?_, ?_⟩
  · exact (congrArg BitVec.toNat hpc).trans (BitVec.toNat_add s.pc 2)
  · rw [State.sp_setSp, hsp, State.sp_called, State.pushAddress_add_one]

/-- Settles O39: a fetch reads memory, so at the stored cell it sees the stored byte. -/
theorem storedBytesAreFetchedAtOnce : Obligations.StoredBytesAreFetchedAtOnce := by
  intro a s d ha
  have hpush (x : Byte) (hx : x = s.pushAddress) : (s.pushed d).memRead x = if d = 7 then s.pushAddress else s.reg d :=
    hx ▸ s.memRead_pushed_same d
  have hcall (x : Byte) (hx : x = s.pushAddress) : (s.called d).memRead x = s.pc + 2 := hx ▸ s.memRead_called_same d
  exact ⟨⟨s.pushed d, exec_push ha s, hpush _, hpush _, hpush _⟩, ⟨s.called d, exec_call ha s, hcall _, hcall _, hcall _⟩⟩

end Sys2Proof.Machine
end

section
/-! PROOFS. Everything an instruction can do, said once. A well-formed instruction completes, in one of the ways `Completes` lists; one
with a register byte above 7 takes InvalidRegisterIndex and does nothing else. The rules over all instructions and the invariant are
case analyses of this relation. -/

namespace Sys2Proof.Machine

/-! ### The ways an instruction completes -/

/-- The instruction completes from `s` and leads to the given state, in the machine with flag map `p`: one constructor per instruction,
two for a conditional jump. -/
inductive Completes (p : FlagMap) (s : State) : Instr → State → Prop
  | halt : Completes p s .halt s.halt
  | loadImmediate {a imm : Byte} {d : RegIdx} (ha : a.toNat = d.val) :
      Completes p s (.loadImmediate a imm) ((s.setReg d imm).advance 3)
  | printReg {a : Byte} {d : RegIdx} (ha : a.toNat = d.val) : Completes p s (.printReg a) ((s.emit (s.reg d)).advance 2)
  | add {a b : Byte} {d r : RegIdx} (ha : a.toNat = d.val) (hb : b.toNat = r.val) :
      Completes p s (.add a b) ((s.setReg d (s.reg d + s.reg r)).advance 3)
  | multiply {a b : Byte} {d r : RegIdx} (ha : a.toNat = d.val) (hb : b.toNat = r.val) :
      Completes p s (.multiply a b) ((s.setReg d (s.reg d * s.reg r)).advance 3)
  | push {a : Byte} {d : RegIdx} (ha : a.toNat = d.val) : Completes p s (.push a) (s.pushed d)
  | pop {a : Byte} {d : RegIdx} (ha : a.toNat = d.val) : Completes p s (.pop a) (s.popped d)
  | call {a : Byte} {d : RegIdx} (ha : a.toNat = d.val) : Completes p s (.call a) (s.called d)
  | ret : Completes p s .ret ((s.jumpTo (s.memRead s.popAddress)).setSp (s.sp + 1))
  | compare {a b : Byte} {d r : RegIdx} (ha : a.toNat = d.val) (hb : b.toNat = r.val) :
      Completes p s (.compare a b) ((s.setFl (compareFlags p (s.reg d) (s.reg r))).advance 3)
  | jumpEqual_taken {a : Byte} {d : RegIdx} (ha : a.toNat = d.val) (hf : s.fl = p.equal) :
      Completes p s (.jumpEqual a) (s.jumpTo (s.reg d))
  | jumpEqual_fallsThrough {a : Byte} {d : RegIdx} (ha : a.toNat = d.val) (hf : s.fl ≠ p.equal) :
      Completes p s (.jumpEqual a) (s.advance 2)
  | jump {a : Byte} {d : RegIdx} (ha : a.toNat = d.val) : Completes p s (.jump a) (s.jumpTo (s.reg d))
  | jumpNotEqual_taken {a : Byte} {d : RegIdx} (ha : a.toNat = d.val) (hf : s.fl ≠ p.equal) :
      Completes p s (.jumpNotEqual a) (s.jumpTo (s.reg d))
  | jumpNotEqual_fallsThrough {a : Byte} {d : RegIdx} (ha : a.toNat = d.val) (hf : s.fl = p.equal) :
      Completes p s (.jumpNotEqual a) (s.advance 2)

/-- What `Completes` lists is the meaning of the instruction. -/
theorem Completes.execWith_eq {p : FlagMap} {s t : State} {i : Instr} (h : Completes p s i t) : execWith p i s = .next t := by
  cases h with
  | halt => exact execHalt_next s
  | loadImmediate ha => exact execLoadImmediate_next ha _ s
  | printReg ha => exact execPrintReg_next ha s
  | add ha hb => exact execAdd_next ha hb s
  | multiply ha hb => exact execMultiply_next ha hb s
  | push ha => exact exec_push ha s
  | pop ha => exact exec_pop ha s
  | call ha => exact exec_call ha s
  | ret => exact execRet_next s
  | compare ha hb => exact execCompareWith_next p ha hb s
  | jumpEqual_taken ha hf => exact execJumpEqualWith_taken ha hf
  | jumpEqual_fallsThrough ha hf => exact execJumpEqualWith_fallsThrough ha hf
  | jump ha => exact execJump_next ha s
  | jumpNotEqual_taken ha hf => exact execJumpNotEqualWith_taken ha hf
  | jumpNotEqual_fallsThrough ha hf => exact execJumpNotEqualWith_fallsThrough ha hf

/-- `Completes` lists a way for every well-formed instruction in every state. -/
theorem exists_completes (p : FlagMap) {i : Instr} (hw : i.WellFormed) (s : State) : ∃ t, Completes p s i t := by
  cases i with
  | halt => exact ⟨_, .halt⟩
  | ret => exact ⟨_, .ret⟩
  | loadImmediate a imm => obtain ⟨d, ha⟩ := exists_reg_of_wellFormed hw; exact ⟨_, .loadImmediate ha⟩
  | printReg a => obtain ⟨d, ha⟩ := exists_reg_of_wellFormed hw; exact ⟨_, .printReg ha⟩
  | push a => obtain ⟨d, ha⟩ := exists_reg_of_wellFormed hw; exact ⟨_, .push ha⟩
  | pop a => obtain ⟨d, ha⟩ := exists_reg_of_wellFormed hw; exact ⟨_, .pop ha⟩
  | call a => obtain ⟨d, ha⟩ := exists_reg_of_wellFormed hw; exact ⟨_, .call ha⟩
  | jump a => obtain ⟨d, ha⟩ := exists_reg_of_wellFormed hw; exact ⟨_, .jump ha⟩
  | add a b => obtain ⟨d, r, ha, hb⟩ := exists_regs_of_wellFormed hw; exact ⟨_, .add ha hb⟩
  | multiply a b => obtain ⟨d, r, ha, hb⟩ := exists_regs_of_wellFormed hw; exact ⟨_, .multiply ha hb⟩
  | compare a b => obtain ⟨d, r, ha, hb⟩ := exists_regs_of_wellFormed hw; exact ⟨_, .compare ha hb⟩
  | jumpEqual a =>
    obtain ⟨d, ha⟩ := exists_reg_of_wellFormed hw
    by_cases hf : s.fl = p.equal
    · exact ⟨_, .jumpEqual_taken ha hf⟩
    · exact ⟨_, .jumpEqual_fallsThrough ha hf⟩
  | jumpNotEqual a =>
    obtain ⟨d, ha⟩ := exists_reg_of_wellFormed hw
    by_cases hf : s.fl = p.equal
    · exact ⟨_, .jumpNotEqual_fallsThrough ha hf⟩
    · exact ⟨_, .jumpNotEqual_taken ha hf⟩

/-! ### Every instruction -/

/-- The fault entry does not record the reported byte (R160), so the state after a bad register index is the same for every `k`. -/
theorem execWith_eq_enterFault (p : FlagMap) {i : Instr} (hw : ¬ i.WellFormed) (s : State) (k : Byte) :
    execWith p i s = .next (s.enterFault (.invalidRegisterIndex k)) := by
  obtain ⟨_, -, -, h⟩ := execWith_of_not_wellFormed p hw s
  exact h

/-- An instruction answers a next state by completing or by the fault entry, as it is well formed or not. -/
theorem execWith_outcome {p : FlagMap} {i : Instr} {s t : State} (h : execWith p i s = .next t) :
    (i.WellFormed ∧ Completes p s i t) ∨ (¬ i.WellFormed ∧ ∃ k, t = s.enterFault (.invalidRegisterIndex k)) := by
  by_cases hw : i.WellFormed
  · obtain ⟨u, hu⟩ := exists_completes p hw s
    exact .inl ⟨hw, Result.next_unique h hu.execWith_eq ▸ hu⟩
  · exact .inr ⟨hw, 0, Result.next_unique h (execWith_eq_enterFault p hw s 0)⟩

theorem exec_outcome {i : Instr} {s t : State} (h : exec i s = .next t) :
    (i.WellFormed ∧ Completes defaultFlags s i t) ∨ (¬ i.WellFormed ∧ ∃ k, t = s.enterFault (.invalidRegisterIndex k)) :=
  execWith_outcome ((execWith_defaultFlags i s).trans h)

theorem exists_execWith_next (p : FlagMap) (i : Instr) (s : State) : ∃ t, execWith p i s = .next t := by
  by_cases hw : i.WellFormed
  · obtain ⟨t, ht⟩ := exists_completes p hw s
    exact ⟨t, ht.execWith_eq⟩
  · exact ⟨_, execWith_eq_enterFault p hw s 0⟩

theorem exists_exec_next (i : Instr) (s : State) : ∃ t, exec i s = .next t :=
  execWith_defaultFlags i s ▸ exists_execWith_next defaultFlags i s

/-! ### What completing does to each field -/

section
variable {p : FlagMap} {s t : State} {i : Instr}

theorem Completes.mode_eq (h : Completes p s i t) : t.mode = if i = .halt then .halted else s.mode := by
  cases h with
  | _ => rfl

theorem Completes.faultCause_eq (h : Completes p s i t) : t.faultCause = s.faultCause := by
  cases h with
  | _ => rfl

/-- Only COMPARE writes `fl`, and it writes the comparator's value. -/
theorem Completes.fl_eq (h : Completes p s i t) : t.fl = s.fl ∨ ∃ a b u v, i = .compare a b ∧ t.fl = compareFlags p u v := by
  cases h with
  | compare => exact .inr ⟨_, _, _, _, rfl, rfl⟩
  | _ => exact .inl rfl

/-- Only PUSH and CALL store, one byte at `sp - 1`. -/
theorem Completes.mem_eq (h : Completes p s i t) :
    t.mem = s.mem ∨ ∃ a v, (i = .push a ∨ i = .call a) ∧ t.mem = s.mem.write s.pushAddress v := by
  cases h with
  | push => exact .inr ⟨_, _, .inl rfl, rfl⟩
  | call => exact .inr ⟨_, _, .inr rfl, rfl⟩
  | _ => exact .inl rfl

/-- Only PRINT_REG emits, its register's value. -/
theorem Completes.out_eq (h : Completes p s i t) :
    (∃ a, ∃ d : RegIdx, i = .printReg a ∧ a.toNat = d.val ∧ t.out = s.out ++ [s.reg d]) ∨
    ((∀ a, i ≠ .printReg a) ∧ t.out = s.out) := by
  cases h with
  | printReg ha => exact .inl ⟨_, _, rfl, ha, rfl⟩
  | _ => exact .inr ⟨fun _ => nofun, rfl⟩

end

/-- A register an operand byte does not name is not the one it names. -/
theorem reg_ne_of_unnamed {a : Byte} {d k : RegIdx} (ha : a.toNat = d.val) (hk : ¬ a.toNat = k.val) : k ≠ d :=
  fun hkd => hk (hkd ▸ ha)

/-! ### The obligations -/

/-- Settles O24: a well-formed instruction completes, and the fault entry is the only other outcome. -/
theorem instructionsFaultExactlyOnABadRegisterIndex : Obligations.InstructionsFaultExactlyOnABadRegisterIndex := by
  intro i s
  obtain ⟨t, ht⟩ := exists_exec_next i s
  refine ⟨t, ht, ?_⟩
  rcases exec_outcome ht with ⟨hw, hc⟩ | ⟨hw, k, rfl⟩
  · exact ⟨fun _ => ⟨hc.mode_eq, hc.faultCause_eq⟩, fun hbad => absurd hw hbad⟩
  · exact ⟨fun hgood => absurd hgood hw, fun _ => s.takesInvalidRegisterIndex_enterFault k⟩

/-- Settles O31: a completing instruction writes the registers of its row, and the fault entry none. -/
theorem onlyTheListedRegistersAreWritten : Obligations.OnlyTheListedRegistersAreWritten := by
  intro i s t h k hk
  rcases exec_outcome h with ⟨-, hc⟩ | ⟨-, e, rfl⟩
  · cases hc with
    | loadImmediate ha => exact s.reg_setReg_ne (reg_ne_of_unnamed ha hk) _
    | add ha => exact s.reg_setReg_ne (reg_ne_of_unnamed ha hk) _
    | multiply ha => exact s.reg_setReg_ne (reg_ne_of_unnamed ha hk) _
    | push => exact s.reg_pushed_ne _ (Fin.ne_of_val_ne hk)
    | pop ha => exact s.reg_popped_ne (reg_ne_of_unnamed ha fun h => hk (.inl h)) (Fin.ne_of_val_ne fun h => hk (.inr h))
    | call => exact s.reg_called_ne _ (Fin.ne_of_val_ne hk)
    | ret => exact State.reg_setReg_ne (k := Config.spIndex) _ (Fin.ne_of_val_ne hk) _
    | _ => rfl
  · rfl

/-- Settles O33: a completing instruction leaves memory alone or stores one byte at `sp - 1`, and the fault entry leaves it alone. -/
theorem onlyPushAndCallStore : Obligations.OnlyPushAndCallStore := by
  intro i s t h
  rcases exec_outcome h with ⟨hw, hc⟩ | ⟨-, k, rfl⟩
  · rcases hc.mem_eq with hmem | ⟨a, v, hi, hmem⟩
    · exact ⟨fun x _ => congrArg (·.read x) hmem, fun _ => hmem⟩
    · refine ⟨fun x hx => (congrArg (·.read x) hmem).trans (s.mem.read_write_ne hx v), fun hother => ?_⟩
      rcases hother with hother | hbad
      · exact absurd hi (not_or.2 (hother a))
      · exact absurd hw hbad
  · exact ⟨fun _ _ => rfl, fun _ => rfl⟩

/-- Settles O34: a completing instruction emits exactly when it is PRINT_REG, and an ill-formed one takes the fault entry, which emits
nothing. -/
theorem onlyPrintRegEmits : Obligations.OnlyPrintRegEmits := by
  intro i s t h
  rcases exec_outcome h with ⟨-, hc⟩ | ⟨hbad, k, rfl⟩
  · rcases hc.out_eq with hprint | ⟨hi, hout⟩
    · exact .inl hprint
    · exact .inr ⟨fun a ha => absurd ha (hi a), hout⟩
  · refine .inr ⟨?_, rfl⟩
    rintro a rfl
    simpa [Instr.WellFormed, Instr.registerOperands] using hbad

end Sys2Proof.Machine
end

section
/-! PROOFS. The step of the engine (spec/40_execution_loop.md R80, R84, R86): from RUNNING it answers a next state in one of three ways,
the undefined-opcode no-op, a completing instruction or the fault entry, and outside RUNNING it is not taken. -/

namespace Sys2Proof.Machine

/-! ### What a step does -/

theorem stepWith_of_instr {c : Params} {s : State} {i : Instr} (hrun : s.mode = .running)
    (hd : decodeWith c.opcodes s.fetch = .instr i) : stepWith c s = execWith c.flags i s := by
  rw [stepWith_running hrun, hd, runDecoded]

theorem stepWith_of_undefined {c : Params} {s : State} {ir : Byte} (hrun : s.mode = .running)
    (hd : decodeWith c.opcodes s.fetch = .undefinedOpcode ir) : stepWith c s = .next (s.advance 1) := by
  rw [stepWith_running hrun, hd, runDecoded, execUndefinedOpcode]

theorem exists_stepWith_next (c : Params) {s : State} (hrun : s.mode = .running) : ∃ t, stepWith c s = .next t := by
  cases hd : decodeWith c.opcodes s.fetch with
  | instr i => exact stepWith_of_instr hrun hd ▸ exists_execWith_next c.flags i s
  | undefinedOpcode ir => exact ⟨_, stepWith_of_undefined hrun hd⟩

/-- Outside RUNNING the answer depends on the run state alone. -/
theorem stepWith_eq_of_not_running (c c' : Params) {s t : State} (hmode : t.mode = s.mode) (h : s.mode ≠ .running) :
    stepWith c' t = stepWith c s := by
  cases hs : s.mode with
  | running => exact absurd hs h
  | notStarted => rw [stepWith_notStarted hs, stepWith_notStarted (hmode.trans hs)]
  | halted => rw [stepWith_halted hs, stepWith_halted (hmode.trans hs)]
  | faulted => rw [stepWith_faulted hs, stepWith_faulted (hmode.trans hs)]

/-- The three ways a step answers a next state. -/
inductive StepsTo (c : Params) (s t : State) : Prop
  | undefinedOpcode (ir : Byte) (hd : decodeWith c.opcodes s.fetch = .undefinedOpcode ir) (ht : t = s.advance 1)
  | completes (i : Instr) (hd : decodeWith c.opcodes s.fetch = .instr i) (hw : i.WellFormed) (hc : Completes c.flags s i t)
  | faults (i : Instr) (hd : decodeWith c.opcodes s.fetch = .instr i) (hw : ¬ i.WellFormed) (k : Byte)
      (ht : t = s.enterFault (.invalidRegisterIndex k))

theorem stepsTo_of_stepWith {c : Params} {s t : State} (h : stepWith c s = .next t) : s.mode = .running ∧ StepsTo c s t := by
  obtain ⟨hrun, ⟨i, hd, he⟩ | ⟨ir, hd, ht⟩⟩ := stepWith_next h
  · rcases execWith_outcome he with ⟨hw, hc⟩ | ⟨hw, k, ht⟩
    · exact ⟨hrun, .completes i hd hw hc⟩
    · exact ⟨hrun, .faults i hd hw k ht⟩
  · exact ⟨hrun, .undefinedOpcode ir hd ht⟩

/-- The run state a completing instruction leaves a RUNNING machine in. -/
theorem Completes.mode_of_running {p : FlagMap} {s t : State} {i : Instr} (h : Completes p s i t) (hrun : s.mode = .running) :
    t.mode = if i = .halt then .halted else .running := by
  rw [h.mode_eq, hrun]

/-- HALT is the one instruction of its row. -/
theorem opcode_eq_halt_iff (i : Instr) : i.opcode = .halt ↔ i = .halt := by
  cases i <;> simp [Instr.opcode]

theorem stepWith_mode {c : Params} {s t : State} (h : stepWith c s = .next t) :
    t.mode = .running ∨ t.mode = .halted ∨ t.mode = .faulted := by
  obtain ⟨hrun, hs⟩ := stepsTo_of_stepWith h
  cases hs with
  | undefinedOpcode ir hd ht =>
    subst ht
    exact .inl hrun
  | completes i hd hw hc =>
    rw [hc.mode_of_running hrun]
    split
    · exact .inr (.inl rfl)
    · exact .inl rfl
  | faults i hd hw k ht =>
    subst ht
    exact .inr (.inr rfl)

/-! ### The obligations about the step -/

/-- Settles O8: `step` is the step with the default parameters, which runs what the decoder answers. -/
theorem stepRunsTheDecodedInstruction : Obligations.StepRunsTheDecodedInstruction := fun s i hrun hd =>
  (stepWith_of_instr (c := defaultParams) hrun hd).trans (execWith_defaultFlags i s)

/-- Settles O10: in RUNNING both the instructions and the no-op answer a next state; in the other run states the step stops. -/
theorem stepIsTakenExactlyWhenRunning : Obligations.StepIsTakenExactlyWhenRunning := fun c _ =>
  ⟨⟨fun ⟨_, ht⟩ => (stepsTo_of_stepWith ht).1, exists_stepWith_next c⟩, stepWith_notStarted, stepWith_halted, stepWith_faulted⟩

/-- Settles O27: of the three ways only the fault entry ends in FAULTED, and it is the way of the ill-formed instructions. -/
theorem stepFaultsExactlyOnABadRegisterIndex : Obligations.StepFaultsExactlyOnABadRegisterIndex := by
  intro c s t h
  obtain ⟨hrun, hs⟩ := stepsTo_of_stepWith h
  have hnoFault (hmode : t.mode ≠ .faulted) (hgood : ∀ i, decodeWith c.opcodes s.fetch = .instr i → i.WellFormed) :
      (t.mode = .faulted ↔ ∃ i, decodeWith c.opcodes s.fetch = .instr i ∧ ¬ i.WellFormed) ∧
      (t.mode = .faulted → TakesInvalidRegisterIndex s t) :=
    ⟨⟨fun hf => absurd hf hmode, fun ⟨i, hd, hbad⟩ => absurd (hgood i hd) hbad⟩, fun hf => absurd hf hmode⟩
  cases hs with
  | undefinedOpcode ir hd ht =>
    subst ht
    refine hnoFault ?_ fun i hi => nomatch hd.symm.trans hi
    rw [State.advance_mode, hrun]
    decide
  | completes i hd hw hc =>
    refine hnoFault ?_ fun j hj => Decoded.instr.inj (hd.symm.trans hj) ▸ hw
    rw [hc.mode_of_running hrun]
    split <;> decide
  | faults i hd hw k ht =>
    subst ht
    exact ⟨⟨fun _ => ⟨i, hd, hw⟩, fun _ => rfl⟩, fun _ => s.takesInvalidRegisterIndex_enterFault k⟩

/-- Settles O28: a completing instruction ends in HALTED exactly when it is HALT, and with distinct opcode bytes the fetched IR tells
whether it is. -/
theorem stepHaltsExactlyOnTheHaltByte : Obligations.StepHaltsExactlyOnTheHaltByte := by
  intro c hm s t h
  refine ⟨?_, stepWith_mode h⟩
  obtain ⟨hrun, hs⟩ := stepsTo_of_stepWith h
  have hir {i : Instr} (hd : decodeWith c.opcodes s.fetch = .instr i) :
      s.memRead s.pc = c.opcodes.byte .halt ↔ i.opcode = .halt := by
    have hbyte : c.opcodes.byte i.opcode = s.memRead s.pc := ((decodeWith_eq_instr_iff hm s.fetch i).1 hd).1
    rw [← hbyte]
    exact ⟨OpcodeMap.byte_inj hm, congrArg _⟩
  cases hs with
  | undefinedOpcode ir hd ht =>
    obtain ⟨rfl, hnone⟩ := (encodeOfDecodeIsTheFetchedBytes c.opcodes s.fetch).2 ir hd
    subst ht
    rw [State.advance_mode, hrun]
    exact ⟨nofun, fun hhalt => absurd hhalt.symm (hnone .halt)⟩
  | completes i hd hw hc =>
    rw [hc.mode_of_running hrun, hir hd, opcode_eq_halt_iff]
    split <;> simp [*]
  | faults i hd hw k ht =>
    subst ht
    rw [hir hd, opcode_eq_halt_iff, State.enterFault_mode]
    refine ⟨nofun, ?_⟩
    rintro rfl
    exact absurd (by simp [Instr.WellFormed, Instr.registerOperands]) hw

/-- Settles O29: of the three ways only a completing COMPARE changes `fl`. -/
theorem onlyCompareWritesFlags : Obligations.OnlyCompareWritesFlags := by
  intro c s t h hfl
  obtain ⟨-, hs⟩ := stepsTo_of_stepWith h
  cases hs with
  | undefinedOpcode ir hd ht => exact absurd (congrArg State.fl ht) hfl
  | completes i hd hw hc =>
    rcases hc.fl_eq with hsame | ⟨a, b, -, -, rfl, -⟩
    · exact absurd hsame hfl
    · exact ⟨a, b, hd, hw a (by simp [Instr.registerOperands]), hw b (by simp [Instr.registerOperands])⟩
  | faults i hd hw k ht => exact absurd (congrArg State.fl ht) hfl

/-! ### The invariant -/

/-- A completing instruction keeps the invariant: it stores at most one byte, writes `fl` at most with the comparator's value, and does
not touch the cause; started in RUNNING it does not end in FAULTED. -/
theorem Completes.inv {p : FlagMap} {s t : State} {i : Instr} (h : Completes p s i t) (hrun : s.mode = .running) (hs : s.Inv p) :
    t.Inv p where
  mem_wf := by
    rcases h.mem_eq with hm | ⟨a, v, -, hm⟩
    · exact hm ▸ hs.mem_wf
    · exact hm ▸ Memory.wf_write hs.mem_wf _ v
  fl_legal := by
    rcases h.fl_eq with hf | ⟨-, -, u, v, -, hf⟩
    · exact hf ▸ hs.fl_legal
    · exact hf ▸ flagsLegal_compareFlags p u v
  cause_iff := by
    have hmode : t.mode ≠ .faulted := by
      rw [h.mode_of_running hrun]
      split <;> decide
    rw [h.faultCause_eq, hs.cause_iff, hrun]
    exact ⟨nofun, fun hf => absurd hf hmode⟩
  cause_supported := h.faultCause_eq ▸ hs.cause_supported

theorem State.Inv.advance {p : FlagMap} {s : State} (hs : s.Inv p) (n : Byte) : (s.advance n).Inv p :=
  ⟨hs.mem_wf, hs.fl_legal, hs.cause_iff, hs.cause_supported⟩

/-- The fault entry for a bad register index records a supported cause with FAULTED. -/
theorem State.Inv.enterFault {p : FlagMap} {s : State} (hs : s.Inv p) (k : Byte) :
    (s.enterFault (.invalidRegisterIndex k)).Inv p :=
  ⟨hs.mem_wf, hs.fl_legal, ⟨fun _ => rfl, fun _ => nofun⟩, nofun⟩

theorem State.inv_reset (p : FlagMap) : State.reset.Inv p where
  mem_wf := Memory.wf_reset
  fl_legal := by simp [flagsLegal, Config.flReset]
  cause_iff := by simp
  cause_supported := by simp

/-- A change of memory and run state keeps the invariant when memory stays canonical and FAULTED is neither entered nor left. -/
theorem State.Inv.of_host {p : FlagMap} {s t : State} (hs : s.Inv p) (hmem : t.mem.wf) (hfl : t.fl = s.fl)
    (hcause : t.faultCause = s.faultCause) (hmode : t.mode = .faulted ↔ s.mode = .faulted) : t.Inv p :=
  ⟨hmem, hfl ▸ hs.fl_legal, by rw [hcause, hs.cause_iff, hmode], hcause ▸ hs.cause_supported⟩

/-- Settles O42: each of the three ways of a step keeps the invariant. -/
theorem stepKeepsTheInvariant : Obligations.StepKeepsTheInvariant := by
  intro c s t hinv h
  obtain ⟨hrun, hs⟩ := stepsTo_of_stepWith h
  cases hs with
  | undefinedOpcode ir hd ht => exact ht ▸ hinv.advance 1
  | completes i hd hw hc => exact hc.inv hrun hinv
  | faults i hd hw k ht => exact ht ▸ hinv.enterFault k

/-- Settles O41: the reset memory lists no cell, `fl` is 0x00 and no cause is recorded. -/
theorem invariantHoldsAtReset : Obligations.InvariantHoldsAtReset := State.inv_reset

/-- Settles O43: reset gives the reset state; load and write_memory write memory canonically; run starts from NOT_STARTED. -/
theorem hostMovesKeepTheInvariant : Obligations.HostMovesKeepTheInvariant := by
  intro p mv s t hs h
  cases mv with
  | reset => exact Except.ok.inj h ▸ State.inv_reset p
  | load bytes =>
    obtain ⟨-, -, rfl⟩ := hostLoad_ok h
    exact hs.of_host (Memory.wf_writeBytes hs.mem_wf _ bytes) rfl rfl Iff.rfl
  | run =>
    obtain ⟨hmode, rfl⟩ := hostRun_ok h
    exact hs.of_host hs.mem_wf rfl rfl (by simp [hmode])
  | writeMemory address value =>
    obtain ⟨-, rfl⟩ := hostWriteMemory_ok h
    exact hs.of_host (Memory.wf_write hs.mem_wf _ _) rfl rfl Iff.rfl

/-- Settles O44, by induction on the history: the invariant holds at reset, and steps and host moves keep it. -/
theorem reachableStatesHaveTheInvariant : Obligations.ReachableStatesHaveTheInvariant := by
  intro c s h
  induction h with
  | reset => exact State.inv_reset c.flags
  | event e _ he ih =>
    cases e with
    | step => exact stepKeepsTheInvariant c _ _ ih he
    | host mv => exact hostMovesKeepTheInvariant c.flags mv _ _ ih he

/-! ### The run state -/

/-- Settles O45, by event: a step's run states, and each host move's. -/
theorem runStateTransitions : Obligations.RunStateTransitions := by
  intro c e s t h
  match e, h with
  | .step, h => exact .inr (.inr (.inl ⟨rfl, (stepsTo_of_stepWith h).1, stepWith_mode h⟩))
  | .host .reset, h => exact .inl ⟨rfl, Except.ok.inj h ▸ rfl⟩
  | .host (.load bytes), h =>
    obtain ⟨hmode, -, rfl⟩ := hostLoad_ok h
    exact .inr (.inr (.inr ⟨rfl, .inl ⟨bytes, rfl, hmode⟩⟩))
  | .host .run, h =>
    obtain ⟨hmode, rfl⟩ := hostRun_ok h
    exact .inr (.inl ⟨rfl, hmode, rfl⟩)
  | .host (.writeMemory address value), h =>
    obtain ⟨hmode, rfl⟩ := hostWriteMemory_ok h
    exact .inr (.inr (.inr ⟨rfl, .inr ⟨address, value, rfl, hmode⟩⟩))

/-- Settles O46, by event: in HALTED and FAULTED no step, load or run happens, and a host write changes its own cell. -/
theorem stoppedCoreIsFrozenUntilReset : Obligations.StoppedCoreIsFrozenUntilReset := by
  intro c e s t hstopped h
  have hstop (m : Mode) (hm : s.mode = m) : m = .halted ∨ m = .faulted := hm ▸ hstopped
  match e, h with
  | .step, h => exact absurd (hstop _ (stepsTo_of_stepWith h).1) (by decide)
  | .host .reset, _ => exact .inl rfl
  | .host (.load bytes), h => exact absurd (hstop _ (hostLoad_ok h).1) (by decide)
  | .host .run, h => exact absurd (hstop _ (hostRun_ok h).1) (by decide)
  | .host (.writeMemory address value), h =>
    obtain ⟨-, rfl⟩ := hostWriteMemory_ok h
    refine .inr ⟨address, value, rfl, fun _ => rfl, rfl, rfl, rfl, rfl, rfl, fun x hx => s.memRead_memWrite_ne ?_ _⟩
    rintro rfl
    exact hx (BitVec.toNat_ofNat address 8)

/-! ### Runs over all-zero memory -/

theorem step_of_zero_opcode {s : State} (hrun : s.mode = .running) (hzero : s.memRead s.pc = 0x00) :
    step s = .next (s.advance 1) := by
  have hrow : ∀ op, defaultOpcodes.byte op ≠ 0x00 := by
    intro op
    cases op <;> decide
  exact stepWith_of_undefinedOpcode hrun (hzero ▸ hrow)

/-- Settles O51, by induction on the number of steps, from every state: 0x00 is no row's byte, so each step is `advance 1`. -/
theorem zeroMemoryRunsForever : Obligations.ZeroMemoryRunsForever := by
  intro s k hrun hzero
  induction k generalizing s with
  | zero => simp
  | succ k ih =>
    rw [core_run_succ k (step_of_zero_opcode hrun (hzero s.pc)), ih (s.advance 1) hrun hzero]
    have hpc : s.pc + 1 + BitVec.ofNat 8 k = s.pc + BitVec.ofNat 8 (k + 1) := by
      rw [BitVec.add_assoc, BitVec.ofNat_add, BitVec.add_comm 1]
      rfl
    simp only [State.advance, hpc]

end Sys2Proof.Machine
end

section
/-! PROOFS. What an instruction does not depend on. Run from a state that differs in one register it does not read, or in `fl` when it is
no conditional jump, it does the same and ends in a state that differs there only (spec/10_state.md R21, R27). With COMPARE and the
conditional jumps at two flag maps, the second gives that no run can tell the flag assignments apart (spec/00_scope.md R7). -/

namespace Sys2Proof.Machine

/-! ### States that differ in one register -/

/-- The two states agree on everything but, perhaps, register `k`. -/
structure AgreeButForReg (k : RegIdx) (s t : State) : Prop where
  reg : ∀ j, j ≠ k → t.reg j = s.reg j
  pc : t.pc = s.pc
  fl : t.fl = s.fl
  mode : t.mode = s.mode
  faultCause : t.faultCause = s.faultCause
  mem : t.mem = s.mem
  out : t.out = s.out

namespace AgreeButForReg

theorem of_setReg (s : State) (k : RegIdx) (v : Byte) : AgreeButForReg k s (s.setReg k v) :=
  ⟨fun _ hj => s.reg_setReg_ne hj v, rfl, rfl, rfl, rfl, rfl, rfl⟩

variable {k : RegIdx} {s t : State} (h : AgreeButForReg k s t)
include h

/-- Writing the register back makes the states equal. -/
theorem setReg_eq : t.setReg k (s.reg k) = s := by
  refine State.ext_obs (fun j => ?_) h.pc h.fl h.mode h.faultCause h.mem h.out
  rw [State.reg_setReg]
  split
  next hj => rw [hj]
  next hj => exact h.reg j hj

theorem memRead (x : Byte) : t.memRead x = s.memRead x := congrArg (·.read x) h.mem

theorem sp (h7 : k ≠ 7) : t.sp = s.sp := h.reg 7 h7.symm

theorem pushAddress (h7 : k ≠ 7) : t.pushAddress = s.pushAddress := congrArg (· - 1) (h.sp h7)

/-! The operations of a meaning keep the agreement. -/

theorem setReg (d : RegIdx) (v : Byte) : AgreeButForReg k (s.setReg d v) (t.setReg d v) where
  reg j hj := by rw [State.reg_setReg, State.reg_setReg, h.reg j hj]
  pc := h.pc
  fl := h.fl
  mode := h.mode
  faultCause := h.faultCause
  mem := h.mem
  out := h.out

theorem memWrite (a v : Byte) : AgreeButForReg k (s.memWrite a v) (t.memWrite a v) :=
  ⟨h.reg, h.pc, h.fl, h.mode, h.faultCause, congrArg (·.write a v) h.mem, h.out⟩

theorem advance (n : Byte) : AgreeButForReg k (s.advance n) (t.advance n) :=
  ⟨h.reg, congrArg (· + n) h.pc, h.fl, h.mode, h.faultCause, h.mem, h.out⟩

theorem jumpTo (v : Byte) : AgreeButForReg k (s.jumpTo v) (t.jumpTo v) :=
  ⟨h.reg, rfl, h.fl, h.mode, h.faultCause, h.mem, h.out⟩

theorem setFl (v : Byte) : AgreeButForReg k (s.setFl v) (t.setFl v) :=
  ⟨h.reg, h.pc, rfl, h.mode, h.faultCause, h.mem, h.out⟩

theorem emit (v : Byte) : AgreeButForReg k (s.emit v) (t.emit v) :=
  ⟨h.reg, h.pc, h.fl, h.mode, h.faultCause, h.mem, congrArg (· ++ [v]) h.out⟩

theorem halt : AgreeButForReg k s.halt t.halt := ⟨h.reg, h.pc, h.fl, rfl, h.faultCause, h.mem, h.out⟩

theorem enterFault (e : Exn) : AgreeButForReg k (s.enterFault e) (t.enterFault e) :=
  ⟨h.reg, h.pc, h.fl, rfl, rfl, h.mem, h.out⟩

theorem pushed (h7 : k ≠ 7) {d : RegIdx} (hd : d ≠ k) : AgreeButForReg k (s.pushed d) (t.pushed d) := by
  have hsp : AgreeButForReg k (s.setSp s.pushAddress) (t.setSp s.pushAddress) := h.setReg Config.spIndex s.pushAddress
  rw [State.pushed, State.pushed, h.pushAddress h7, hsp.reg d hd]
  exact (hsp.memWrite _ _).advance 2

theorem popped (h7 : k ≠ 7) (d : RegIdx) : AgreeButForReg k (s.popped d) (t.popped d) := by
  have hload : AgreeButForReg k (s.setReg d (s.memRead s.sp)) (t.setReg d (t.memRead t.sp)) := by
    rw [h.sp h7, h.memRead]
    exact h.setReg d _
  rw [State.popped, State.popped, State.popAddress, State.popAddress, hload.sp h7]
  exact (hload.setReg Config.spIndex _).advance 2

theorem called (h7 : k ≠ 7) {d : RegIdx} (hd : d ≠ k) : AgreeButForReg k (s.called d) (t.called d) := by
  have hpush : AgreeButForReg k ((s.memWrite s.pushAddress (s.pc + 2)).setSp s.pushAddress)
      ((t.memWrite t.pushAddress (t.pc + 2)).setSp t.pushAddress) := by
    rw [h.pushAddress h7, h.pc]
    exact (h.memWrite _ _).setReg Config.spIndex _
  rw [State.called, State.called, hpush.reg d hd]
  exact hpush.jumpTo _

end AgreeButForReg

/-- From a state that differs in a register it does not read, a completing instruction completes the same way. -/
theorem Completes.of_agreeButForReg {s t s' : State} {i : Instr} {k : RegIdx} (h : Completes defaultFlags s i t)
    (hk : ¬ ReadsReg i s k) (hs : AgreeButForReg k s s') : ∃ t', Completes defaultFlags s' i t' ∧ AgreeButForReg k t t' := by
  have hne {a : Byte} {d : RegIdx} (ha : a.toNat = d.val) (hk : ¬ a.toNat = k.val) : d ≠ k := (reg_ne_of_unnamed ha hk).symm
  have hreg {a : Byte} {d : RegIdx} (ha : a.toNat = d.val) (hk : ¬ a.toNat = k.val) : s'.reg d = s.reg d := hs.reg d (hne ha hk)
  cases h with
  | halt => exact ⟨_, .halt, hs.halt⟩
  | loadImmediate ha => exact ⟨_, .loadImmediate ha, (hs.setReg _ _).advance 3⟩
  | printReg ha => exact ⟨_, .printReg ha, hreg ha hk ▸ (hs.emit _).advance 2⟩
  | add ha hb =>
    refine ⟨_, .add ha hb, ?_⟩
    rw [hreg ha fun h => hk (.inl h), hreg hb fun h => hk (.inr h)]
    exact (hs.setReg _ _).advance 3
  | multiply ha hb =>
    refine ⟨_, .multiply ha hb, ?_⟩
    rw [hreg ha fun h => hk (.inl h), hreg hb fun h => hk (.inr h)]
    exact (hs.setReg _ _).advance 3
  | push ha => exact ⟨_, .push ha, hs.pushed (Fin.ne_of_val_ne fun h => hk (.inl h)) (hne ha fun h => hk (.inr h))⟩
  | pop ha => exact ⟨_, .pop ha, hs.popped (Fin.ne_of_val_ne hk) _⟩
  | call ha => exact ⟨_, .call ha, hs.called (Fin.ne_of_val_ne fun h => hk (.inl h)) (hne ha fun h => hk (.inr h))⟩
  | ret =>
    refine ⟨_, .ret, ?_⟩
    rw [State.popAddress, State.popAddress, hs.sp (Fin.ne_of_val_ne hk), hs.memRead]
    exact (hs.jumpTo _).setReg Config.spIndex _
  | compare ha hb =>
    refine ⟨_, .compare ha hb, ?_⟩
    rw [hreg ha fun h => hk (.inl h), hreg hb fun h => hk (.inr h)]
    exact (hs.setFl _).advance 3
  | jumpEqual_taken ha hf =>
    exact ⟨_, .jumpEqual_taken ha (hs.fl.trans hf), hreg ha (fun h => hk ⟨hf, h⟩) ▸ hs.jumpTo _⟩
  | jumpEqual_fallsThrough ha hf => exact ⟨_, .jumpEqual_fallsThrough ha (hs.fl ▸ hf), hs.advance 2⟩
  | jump ha => exact ⟨_, .jump ha, hreg ha hk ▸ hs.jumpTo _⟩
  | jumpNotEqual_taken ha hf =>
    exact ⟨_, .jumpNotEqual_taken ha (hs.fl ▸ hf), hreg ha (fun h => hk ⟨hf, h⟩) ▸ hs.jumpTo _⟩
  | jumpNotEqual_fallsThrough ha hf => exact ⟨_, .jumpNotEqual_fallsThrough ha (hs.fl.trans hf), hs.advance 2⟩

/-! ### States that differ in `fl`, under two flag maps -/

/-- How `fl` after an instruction under flag map `p` corresponds to `g'` after it under `q`, started from `g`: both are as before, or both
are the comparator's value for the same operands. -/
def FlCorresponds (p q : FlagMap) (s t : State) (g g' : Byte) : Prop :=
  (t.fl = s.fl ∧ g' = g) ∨ ∃ u v, t.fl = compareFlags p u v ∧ g' = compareFlags q u v

/-- With another `fl` and another flag map a completing instruction completes the same way but for `fl`; a conditional jump does when the
two values agree on being EQUAL. -/
theorem Completes.with_fl {p q : FlagMap} {s t : State} {i : Instr} {g : Byte} (h : Completes p s i t)
    (hj : (∀ a, i ≠ .jumpEqual a ∧ i ≠ .jumpNotEqual a) ∨ (s.fl = p.equal ↔ g = q.equal)) :
    ∃ g', Completes q (s.setFl g) i (t.setFl g') ∧ FlCorresponds p q s t g g' := by
  have hkept {t : State} (hfl : t.fl = s.fl) (hc : Completes q (s.setFl g) i (t.setFl g)) :
      ∃ g', Completes q (s.setFl g) i (t.setFl g') ∧ FlCorresponds p q s t g g' := ⟨g, hc, .inl ⟨hfl, rfl⟩⟩
  cases h with
  | halt => exact hkept rfl .halt
  | loadImmediate ha => exact hkept rfl (.loadImmediate ha)
  | printReg ha => exact hkept rfl (.printReg ha)
  | add ha hb => exact hkept rfl (.add ha hb)
  | multiply ha hb => exact hkept rfl (.multiply ha hb)
  | push ha => exact hkept rfl (.push ha)
  | pop ha => exact hkept rfl (.pop ha)
  | call ha => exact hkept rfl (.call ha)
  | ret => exact hkept rfl .ret
  | compare ha hb => exact ⟨_, .compare ha hb, .inr ⟨_, _, rfl, rfl⟩⟩
  | jump ha => exact hkept rfl (.jump ha)
  | @jumpEqual_taken a d ha hf =>
    have hiff := hj.resolve_left fun hno => (hno a).1 rfl
    exact hkept rfl (.jumpEqual_taken ha (hiff.1 hf))
  | @jumpEqual_fallsThrough a d ha hf =>
    have hiff := hj.resolve_left fun hno => (hno a).1 rfl
    exact hkept rfl (.jumpEqual_fallsThrough ha (mt hiff.2 hf))
  | @jumpNotEqual_taken a d ha hf =>
    have hiff := hj.resolve_left fun hno => (hno a).2 rfl
    exact hkept rfl (.jumpNotEqual_taken ha (mt hiff.2 hf))
  | @jumpNotEqual_fallsThrough a d ha hf =>
    have hiff := hj.resolve_left fun hno => (hno a).2 rfl
    exact hkept rfl (.jumpNotEqual_fallsThrough ha (hiff.1 hf))

/-- Agreeing but for the coding of `fl` is having `fl` replaced by a value that says the same. -/
theorem agreeButForFlagCoding_iff {p q : FlagMap} {s t : State} :
    AgreeButForFlagCoding p q s t ↔ ∃ g, SameOutcome p q s.fl g ∧ t = s.setFl g := by
  constructor
  · rintro ⟨hfl, hreg, hpc, hmode, hcause, hmem, hout⟩
    exact ⟨t.fl, hfl, State.ext_obs hreg hpc rfl hmode hcause hmem hout⟩
  · rintro ⟨g, hg, rfl⟩
    exact ⟨hg, fun _ => rfl, rfl, rfl, rfl, rfl, rfl⟩

/-- Values that say the same agree on being EQUAL. -/
theorem SameOutcome.equal_iff {p q : FlagMap} (hp : p.Valid) (hq : q.Valid) {f g : Byte} (h : SameOutcome p q f g) :
    f = p.equal ↔ g = q.equal := by
  have hother (hf : f = 0x00 ∨ f = p.greater ∨ f = p.less) (hg : g = 0x00 ∨ g = q.greater ∨ g = q.less) :
      f = p.equal ↔ g = q.equal :=
    iff_of_false (ne_equal_of_other_outcome hp hf) (ne_equal_of_other_outcome hq hg)
  rcases h with ⟨hf, hg⟩ | ⟨hf, hg⟩ | ⟨hf, hg⟩ | ⟨hf, hg⟩
  · exact hother (.inl hf) (.inl hg)
  · exact hother (.inr (.inr hf)) (.inr (.inr hg))
  · exact hother (.inr (.inl hf)) (.inr (.inl hg))
  · exact iff_of_true hf hg

/-- The comparator's values for the same operands under two flag maps say the same. -/
theorem sameOutcome_compareFlags (p q : FlagMap) (u v : Byte) : SameOutcome p q (compareFlags p u v) (compareFlags q u v) := by
  rcases compareFlags_cases p u v with ⟨h, hp⟩ | ⟨h, hp⟩ | ⟨rfl, hp⟩
  · exact .inr (.inl ⟨hp, compareFlags_less q h⟩)
  · exact .inr (.inr (.inl ⟨hp, compareFlags_greater q h⟩))
  · exact .inr (.inr (.inr ⟨hp, compareFlags_self q u⟩))

theorem FlCorresponds.sameOutcome {p q : FlagMap} {s t : State} {g g' : Byte} (h : FlCorresponds p q s t g g')
    (hg : SameOutcome p q s.fl g) : SameOutcome p q t.fl g' := by
  rcases h with ⟨hf, rfl⟩ | ⟨u, v, hf, rfl⟩
  · exact hf ▸ hg
  · exact hf ▸ sameOutcome_compareFlags p q u v

/-- A step under flag map `p` is matched by the step under `q` from the state with `fl` coded for `q`. -/
theorem stepWith_setFl {m : OpcodeMap} {p q : FlagMap} (hp : p.Valid) (hq : q.Valid) {s s' : State} {g : Byte}
    (hg : SameOutcome p q s.fl g) (h : stepWith ⟨m, p⟩ s = .next s') :
    ∃ g', SameOutcome p q s'.fl g' ∧ stepWith ⟨m, q⟩ (s.setFl g) = .next (s'.setFl g') := by
  obtain ⟨hrun, hs⟩ := stepsTo_of_stepWith h
  have hinstr {i : Instr} (hd : decodeWith m s.fetch = .instr i) : stepWith ⟨m, q⟩ (s.setFl g) = execWith q i (s.setFl g) :=
    stepWith_of_instr hrun hd
  cases hs with
  | undefinedOpcode ir hd ht =>
    subst ht
    exact ⟨g, hg, stepWith_of_undefined (s := s.setFl g) hrun hd⟩
  | completes i hd hw hc =>
    obtain ⟨g', hc', hfl⟩ := hc.with_fl (.inr (hg.equal_iff hp hq))
    exact ⟨g', hfl.sameOutcome hg, (hinstr hd).trans hc'.execWith_eq⟩
  | faults i hd hw k ht =>
    subst ht
    exact ⟨g, hg, (hinstr hd).trans (execWith_eq_enterFault q hw _ k)⟩

/-! ### The obligations -/

/-- Settles O32: completing, the instruction does the same from the other state; ill formed, it takes the fault entry from both. -/
theorem onlyTheListedRegistersAreRead : Obligations.OnlyTheListedRegistersAreRead := by
  intro i s t k v hk h
  have hs := AgreeButForReg.of_setReg s k v
  rcases exec_outcome h with ⟨-, hc⟩ | ⟨hw, e, rfl⟩
  · obtain ⟨t', hc', ht'⟩ := hc.of_agreeButForReg hk hs
    exact ⟨t', (execWith_defaultFlags i _).symm.trans hc'.execWith_eq, ht'.setReg_eq⟩
  · exact ⟨_, (execWith_defaultFlags i _).symm.trans (execWith_eq_enterFault defaultFlags hw _ e), (hs.enterFault _).setReg_eq⟩

/-- Settles O30: but for `fl` the instruction does the same from the other state, completing or taking the fault entry. -/
theorem onlyConditionalJumpsReadFlags : Obligations.OnlyConditionalJumpsReadFlags := by
  intro i s t f hi h
  rcases exec_outcome h with ⟨-, hc⟩ | ⟨hw, k, rfl⟩
  · obtain ⟨g', hc', -⟩ := hc.with_fl (q := defaultFlags) (g := f) (.inl hi)
    exact ⟨t.setFl g', (execWith_defaultFlags i _).symm.trans hc'.execWith_eq, rfl⟩
  · exact ⟨_, (execWith_defaultFlags i _).symm.trans (execWith_eq_enterFault defaultFlags hw _ k), rfl⟩

/-- Settles O54: a simulation; the two states differ in how `fl` is coded, which only the conditional jumps could see, and they only ask
whether it is EQUAL. -/
theorem flagAssignmentIsUnobservable : Obligations.FlagAssignmentIsUnobservable := by
  intro m p q hp hq
  refine ⟨⟨.inl ⟨rfl, rfl⟩, fun _ => rfl, rfl, rfl, rfl, rfl, rfl⟩, fun s t hst => ?_⟩
  obtain ⟨g, hg, rfl⟩ := agreeButForFlagCoding_iff.1 hst
  refine ⟨rfl, fun s' h => ?_, fun r h => ?_⟩
  · obtain ⟨g', hg', h'⟩ := stepWith_setFl hp hq hg h
    exact ⟨s'.setFl g', h', agreeButForFlagCoding_iff.2 ⟨g', hg', rfl⟩⟩
  · have hstopped : s.mode ≠ .running := by
      intro hrun
      obtain ⟨t, ht⟩ := exists_stepWith_next ⟨m, p⟩ hrun
      exact nomatch ht.symm.trans h
    rw [← h]
    exact stepWith_eq_of_not_running ⟨m, p⟩ ⟨m, q⟩ rfl hstopped

end Sys2Proof.Machine
end

section
/-! PROOFS. HALT, PRINT_REG, the ALU, the register check, and COMPARE with the conditional jumps at any flag map
(spec/41_halt_load_print.md, spec/42_alu.md, spec/45_compare_and_jump.md, spec/60_exceptions.md R168). -/

namespace Sys2Proof.Machine

/-! ### HALT and PRINT_REG -/

theorem exec_printReg (a : Byte) (s : State) : exec (.printReg a) s = execPrintReg a s := rfl

theorem exec_halt (s : State) : exec .halt s = .next s.halt := rfl

theorem State.keeps_halt (s : State) : Keeps s s.halt [] [] := ⟨fun _ _ => rfl, fun _ _ => rfl⟩

theorem State.keeps_advance_emit (s : State) (v n : Byte) : Keeps s ((s.emit v).advance n) [] [] :=
  ⟨fun _ _ => rfl, fun _ _ => rfl⟩

/-- Settles O11: the next state is `halt`, which writes the run state only. -/
theorem haltStopsTheRun : Obligations.HaltStopsTheRun := fun s =>
  ⟨s.halt, exec_halt s, s.halt_mode, s.halt_pc, s.keeps_halt, s.halt_fl, s.halt_faultCause, s.halt_out⟩

/-- Settles O13: the next state emits the register and advances by 2. -/
theorem printRegEmitsTheRegister : Obligations.PrintRegEmitsTheRegister := by
  intro a s d ha
  rw [exec_printReg]
  exact ⟨_, execPrintReg_next ha s, rfl, State.toNat_pc_advance _ 2, s.keeps_advance_emit _ 2, rfl, rfl, rfl⟩

/-! ### The ALU and the register check -/

theorem alu_other (code : Nat) (d r : RegIdx) (s : State) :
    alu (.other code) d r s = .error (.unsupportedOperation (.other code)) := rfl

/-- The ALU's result is written to the first register and nothing else is. -/
theorem State.keeps_setReg (s : State) (d : RegIdx) (v : Byte) : Keeps s (s.setReg d v) [d] [] where
  reg _ hk := s.reg_setReg_ne (List.ne_of_not_mem_cons hk) v
  memRead _ _ := rfl

/-- Settles O25: the first bad byte is reported, and two good bytes give their registers. -/
theorem firstBadOperandIsReported : Obligations.FirstBadOperandIsReported := by
  refine fun a b => ⟨checkRegs_error_left, fun ha hb => ?_, fun d r => checkRegs_ok⟩
  obtain ⟨d, hd⟩ := exists_reg_of_le ha
  exact checkRegs_error_right hd hb

/-- Settles O26, by operation: ADD and MULTIPLY write the byte sum and product, and any other code is reported. -/
theorem aluSupportsExactlyAddAndMultiply : Obligations.AluSupportsExactlyAddAndMultiply := by
  intro op d r s
  cases op with
  | add =>
    refine ⟨⟨fun _ => .inl rfl, fun _ => ⟨_, alu_add d r s⟩⟩, fun t ht => ?_, fun e he => nomatch (alu_add d r s).symm.trans he⟩
    obtain rfl := Except.ok.inj ((alu_add d r s).symm.trans ht)
    exact ⟨s.keeps_setReg d _, fun _ => by rw [State.reg_setReg_same, BitVec.toNat_add], nofun⟩
  | multiply =>
    refine ⟨⟨fun _ => .inr rfl, fun _ => ⟨_, alu_multiply d r s⟩⟩, fun t ht => ?_,
      fun e he => nomatch (alu_multiply d r s).symm.trans he⟩
    obtain rfl := Except.ok.inj ((alu_multiply d r s).symm.trans ht)
    exact ⟨s.keeps_setReg d _, nofun, fun _ => by rw [State.reg_setReg_same, BitVec.toNat_mul]⟩
  | other code =>
    refine ⟨⟨fun ⟨t, ht⟩ => (nomatch (alu_other code d r s).symm.trans ht), nofun⟩,
      fun t ht => (nomatch (alu_other code d r s).symm.trans ht), fun e he => ?_⟩
    obtain rfl := Except.error.inj ((alu_other code d r s).symm.trans he)
    exact ⟨rfl, rfl⟩

/-! ### COMPARE and the conditional jumps at a flag map -/

theorem execWith_compare (p : FlagMap) (a b : Byte) (s : State) : execWith p (.compare a b) s = execCompareWith p a b s := rfl

theorem execWith_jumpEqual (p : FlagMap) (a : Byte) (s : State) : execWith p (.jumpEqual a) s = execJumpEqualWith p a s := rfl

theorem execWith_jumpNotEqual (p : FlagMap) (a : Byte) (s : State) :
    execWith p (.jumpNotEqual a) s = execJumpNotEqualWith p a s := rfl

/-- The condition of the jumps after a COMPARE says that its operands were equal. -/
theorem flagsEqual_compareFlags {p : FlagMap} (hp : p.Valid) (u v : Byte) : flagsEqual p (compareFlags p u v) = true ↔ u = v := by
  obtain ⟨-, -, hequal⟩ := compareFlags_eq_iff hp u v
  rw [flagsEqual_iff, hequal, BitVec.toNat_inj]

/-- Settles O23: whether `fl` is EQUAL decides which of the two jumps is taken, and the other falls through. -/
theorem conditionalJumpsAreComplements : Obligations.ConditionalJumpsAreComplements := by
  intro a s d ha
  rw [exec_jumpEqual, exec_jumpNotEqual]
  by_cases hf : s.fl = defaultFlags.equal
  · exact ⟨_, _, execJumpEqual_taken ha hf, execJumpNotEqual_fallsThrough ha hf, .inl ⟨hf, rfl, s.toNat_pc_advance 2⟩⟩
  · exact ⟨_, _, execJumpEqual_fallsThrough ha hf, execJumpNotEqual_taken ha hf, .inr ⟨hf, s.toNat_pc_advance 2, rfl⟩⟩

/-- Settles O52: under each map the condition says that the operands were equal, and 0x00 is no map's EQUAL value. -/
theorem jumpConditionIgnoresTheFlagValues : Obligations.JumpConditionIgnoresTheFlagValues := by
  intro p q hp hq u v
  refine ⟨?_, flagsEqual_compareFlags hp u v, ?_⟩
  · rw [Bool.eq_iff_iff, flagsEqual_compareFlags hp, flagsEqual_compareFlags hq]
  · rw [Bool.eq_false_iff, ne_eq, flagsEqual_iff]
    exact ne_equal_of_other_outcome hp (.inl rfl)

/-- Settles O53: the comparator's value tells the order of its operands under every valid map, `fl` against EQUAL decides the jumps, and
an ill-formed instruction takes the fault entry whatever the map. -/
theorem compareAndBranchUnderEveryFlagMap : Obligations.CompareAndBranchUnderEveryFlagMap := by
  refine fun p hp => ⟨fun a b s d r ha hb => ?_, fun a s d ha => ?_, fun i s hw => ?_⟩
  · obtain ⟨hless, hgreater, hequal⟩ := compareFlags_eq_iff hp (s.reg d) (s.reg r)
    rw [execWith_compare]
    exact ⟨_, execCompareWith_next p ha hb s, hless.symm, hgreater.symm, hequal.symm, compareFlags_toNat_div_eight hp _ _,
      State.toNat_pc_advance _ 3, s.keeps_advance_setFl _ 3, rfl, rfl, rfl⟩
  · rw [execWith_jumpEqual, execWith_jumpNotEqual]
    by_cases hf : s.fl = p.equal
    · exact ⟨_, _, execJumpEqualWith_taken ha hf, execJumpNotEqualWith_fallsThrough ha hf, fun _ => ⟨rfl, s.toNat_pc_advance 2⟩,
        fun hne => absurd hf hne, s.keeps_jumpTo _, rfl, rfl, rfl, rfl, s.keeps_advance 2, rfl, rfl, rfl, rfl⟩
    · exact ⟨_, _, execJumpEqualWith_fallsThrough ha hf, execJumpNotEqualWith_taken ha hf, fun heq => absurd heq hf,
        fun _ => ⟨s.toNat_pc_advance 2, rfl⟩, s.keeps_advance 2, rfl, rfl, rfl, rfl, s.keeps_jumpTo _, rfl, rfl, rfl, rfl⟩
  · exact ⟨_, execWith_eq_enterFault p hw s 0, s.takesInvalidRegisterIndex_enterFault 0⟩

/-- Settles O55: the definitions' own defaults, which are legal; only the instructions excluded depend on the flag map. -/
theorem execIsTheDefaultMachine : Obligations.ExecIsTheDefaultMachine := fun i s =>
  ⟨execWith_defaultFlags i s, rfl, ⟨defaultOpcodes_distinct, defaultFlags_valid⟩, fun p hc hj =>
    execWith_eq_exec p s hc (fun a => (hj a).1) fun a => (hj a).2⟩

end Sys2Proof.Machine
end

section
/-! PROOFS. The memory a byte string leaves, canonical memories, and the moves by which the host loads, starts and reads the machine
(spec/20_memory.md, spec/50_interfaces.md R142, R144, R152, spec/70_reset_and_hazards.md R182). -/

namespace Sys2Proof.Machine

/-! ### Canonical memories -/

theorem Memory.readAt_eq_unlisted {m : Memory} {a : Nat} (h : ∀ c ∈ m, c.1 ≠ a) : m.readAt a = Memory.unlisted := by
  induction m with
  | nil => rfl
  | cons c m ih =>
    obtain ⟨k, v⟩ := c
    rw [Memory.readAt_cons, if_neg (h (k, v) (List.mem_cons_self ..)), ih fun c hc => h c (List.mem_cons_of_mem _ hc)]

theorem Memory.readAt_of_mem {m : Memory} (hs : m.Pairwise fun c d => c.1 < d.1) {a : Nat} {v : Byte} (h : (a, v) ∈ m) :
    m.readAt a = v := by
  induction m with
  | nil => nomatch h
  | cons c m ih =>
    obtain ⟨k, u⟩ := c
    obtain ⟨hhead, htail⟩ := List.pairwise_cons.1 hs
    rw [Memory.readAt_cons]
    rcases List.mem_cons.1 h with heq | hmem
    · obtain ⟨rfl, rfl⟩ := Prod.mk.inj heq
      exact if_pos rfl
    · rw [if_neg (hhead _ hmem).ne, ih htail hmem]

/-- The cells of a canonical memory are the addresses that do not read as unlisted, with what they read. -/
theorem Memory.mem_iff_readAt {m : Memory} (h : m.wf) (a : Nat) (v : Byte) :
    (a, v) ∈ m ↔ m.readAt a = v ∧ v ≠ Memory.unlisted := by
  constructor
  · intro hmem
    exact ⟨Memory.readAt_of_mem h.1 hmem, (h.2 _ hmem).2⟩
  · rintro ⟨hread, hv⟩
    by_contra hnone
    refine hv (hread.symm.trans (Memory.readAt_eq_unlisted ?_))
    rintro ⟨k, u⟩ hmem rfl
    exact hnone (hread ▸ Memory.readAt_of_mem h.1 hmem ▸ hmem)

/-- A canonical memory lists only cells of the address space, so every address beyond it reads as unlisted. -/
theorem Memory.readAt_eq_unlisted_of_le {m : Memory} (h : m.wf) {a : Nat} (ha : 256 ≤ a) : m.readAt a = Memory.unlisted := by
  refine Memory.readAt_eq_unlisted fun c hc hca => ?_
  have hlt : c.1 < 256 := (h.2 c hc).1
  omega

/-- Settles O40: both memories list the same cells, the addresses that do not read as unlisted, and both list them by rising address. -/
theorem canonicalMemoriesThatReadAlikeAreEqual : Obligations.CanonicalMemoriesThatReadAlikeAreEqual := by
  intro m n hm hn hread
  have hreadAt (a : Nat) : m.readAt a = n.readAt a := by
    by_cases ha : a < 256
    · have hbyte := hread (BitVec.ofNat 8 a)
      rwa [Memory.read, Memory.read, BitVec.toNat_ofNat, Nat.mod_eq_of_lt ha] at hbyte
    · rw [Memory.readAt_eq_unlisted_of_le hm (Nat.not_lt.1 ha), Memory.readAt_eq_unlisted_of_le hn (Nat.not_lt.1 ha)]
  have hperm : m.Perm n := by
    have hnodup {m : Memory} (h : m.wf) : m.Nodup := h.1.imp fun hlt heq => (heq ▸ hlt).ne rfl
    rw [List.perm_ext_iff_of_nodup (hnodup hm) (hnodup hn)]
    rintro ⟨a, v⟩
    rw [Memory.mem_iff_readAt hm, Memory.mem_iff_readAt hn, hreadAt]
  exact hperm.eq_of_pairwise (fun _ _ _ _ hlt hgt => absurd hlt hgt.asymm) hm.1 hn.1

/-! ### Load and run -/

theorem hostLoad_of_notStarted {bytes : List Byte} {s : State} (hmode : s.mode = .notStarted) (hlen : bytes.length ≤ 256) :
    hostLoad bytes s = .ok { s with mem := s.mem.writeBytes (BitVec.ofNat 8 Config.loadBase) bytes } := by
  have hfits : ¬ Config.maxProgram < bytes.length := Nat.not_lt.2 hlen
  rw [hostLoad, if_neg (not_not.2 hmode), if_neg hfits]

theorem hostRun_of_notStarted {s : State} (hmode : s.mode = .notStarted) : hostRun s = .ok { s with mode := .running } := by
  rw [hostRun, if_neg (not_not.2 hmode)]

/-- After a load the stream stands from address 0, and beyond it memory reads as before. -/
theorem Memory.read_writeBytes_loadBase (m : Memory) (bytes : List Byte) (hlen : bytes.length ≤ 256) (x : Byte) :
    (m.writeBytes (BitVec.ofNat 8 Config.loadBase) bytes).read x =
      if x.toNat < bytes.length then bytes.getD x.toNat 0 else m.read x := by
  have hdist : x - BitVec.ofNat 8 Config.loadBase = x := BitVec.sub_zero x
  rw [Memory.read_writeBytes m _ x bytes hlen, hdist]

/-- Settles O47: the bytes of an accepted stream land from `LOAD_BASE`; the two refusals are the move's two checks. -/
theorem loadWritesTheStreamFromAddressZero : Obligations.LoadWritesTheStreamFromAddressZero := by
  refine fun bytes s => ⟨fun hmode hlen => ?_, fun hmode hlong => ?_, fun hmode => if_pos hmode⟩
  · exact ⟨_, hostLoad_of_notStarted hmode hlen, s.mem.read_writeBytes_loadBase bytes hlen, fun _ => rfl, rfl, rfl, rfl, rfl, rfl⟩
  · rw [hostLoad, if_neg (not_not.2 hmode)]
    exact if_pos hlong

/-- Settles O48: the move writes the run state only, after one check. -/
theorem runStartsOnlyFromNotStarted : Obligations.RunStartsOnlyFromNotStarted := fun _ =>
  ⟨fun hmode => ⟨_, hostRun_of_notStarted hmode, rfl, rfl, ⟨fun _ _ => rfl, fun _ _ => rfl⟩, rfl, rfl, rfl⟩,
    fun hmode => if_pos hmode⟩

/-- Settles O50: load and run leave the stream in memory from address 0, where `pc` is, so the fetch begins with the encoding. -/
theorem bootRunsTheFirstLoadedInstruction : Obligations.BootRunsTheFirstLoadedInstruction := by
  intro c hm i rest hlen
  obtain ⟨haccepts, -, -⟩ := loadWritesTheStreamFromAddressZero (encodeWith c.opcodes i ++ rest) State.reset
  obtain ⟨s, hload, hmem, hreg, hpc, hfl, hmode, hcause, hout⟩ := haccepts State.reset_mode hlen
  have hbytes (x : Byte) : s.memRead x = (encodeWith c.opcodes i ++ rest).getD x.toNat 0x00 := by
    rw [hmem]
    split
    next => rfl
    next hx => rw [List.getD_eq_default _ _ (Nat.not_lt.1 hx), State.memRead_reset]
  have hstarted : ({ s with mode := .running } : State).memRead = s.memRead := rfl
  have hfetch : decodeWith c.opcodes ({ s with mode := .running } : State).fetch = .instr i := by
    rw [decodeWith_eq_instr_iff_encodeWith_isPrefix hm, isPrefix_fetch_iff _ (encodeWith_length_le_three c.opcodes i)]
    intro j hj
    have hj3 := hj.trans_le (encodeWith_length_le_three c.opcodes i)
    have haddr : (s.pc + BitVec.ofNat 8 j).toNat = j := by
      rw [hpc, State.reset_pc]
      exact (congrArg BitVec.toNat (BitVec.zero_add _)).trans ((BitVec.toNat_ofNat j 8).trans (Nat.mod_eq_of_lt (by omega)))
    rw [hstarted, hbytes, haddr, List.getD_append _ _ _ _ hj]
  exact ⟨s, { s with mode := .running }, hload, hostRun_of_notStarted (hmode.trans State.reset_mode), stepWith_of_instr rfl hfetch,
    fun k => (hreg k).trans (State.reg_reset k), hpc, hfl, rfl, hcause, hout, hbytes⟩

/-! ### The memory primitives -/

theorem hostWriteMemory_of_not_running {s : State} (h : s.mode ≠ .running) (address value : Nat) :
    hostWriteMemory address value s = .ok (s.memWrite (BitVec.ofNat 8 address) (BitVec.ofNat 8 value)) := if_neg h

theorem hostReadMemory_of_not_running {s : State} (h : s.mode ≠ .running) (address : Nat) :
    hostReadMemory address s = .ok (s.memRead (BitVec.ofNat 8 address)) := if_neg h

/-- Settles O49: outside RUNNING the primitives are a memory write and a memory read at the reduced address. -/
theorem hostMemoryPrimitivesReduceModulo256 : Obligations.HostMemoryPrimitivesReduceModulo256 := by
  refine fun address value s => ⟨fun hrun => ?_, fun hstopped => ?_⟩
  · rw [hostWriteMemory, hostReadMemory, if_pos hrun, if_pos hrun, hrun]
    exact ⟨rfl, rfl⟩
  · have hwritten : (s.memWrite (BitVec.ofNat 8 address) (BitVec.ofNat 8 value)).mode ≠ .running := hstopped
    refine ⟨_, hostWriteMemory_of_not_running hstopped address value, ⟨BitVec.ofNat 8 value, ?_, BitVec.toNat_ofNat value 8⟩,
      fun other hother => ?_, fun _ => rfl, rfl, rfl, rfl, rfl, rfl⟩
    · rw [hostReadMemory_of_not_running hwritten, State.memRead_memWrite_same]
    · have hcell : BitVec.ofNat 8 other ≠ BitVec.ofNat 8 address := by
        intro heq
        have hnat := congrArg BitVec.toNat heq
        rw [BitVec.toNat_ofNat, BitVec.toNat_ofNat] at hnat
        exact hother hnat
      rw [hostReadMemory_of_not_running hwritten, hostReadMemory_of_not_running hstopped, State.memRead_memWrite_ne _ hcell]

/-! ### A placed word -/

theorem decode_of_decodeTableWord {nbits w : Nat} {i : Instr} (h : decodeTableWord nbits w = some i) :
    decode (wordBytes nbits w) = .instr i := by
  unfold decodeTableWord at h
  split at h
  next j hd => rw [hd, Option.some.inj h]
  next => nomatch h

/-- Placing a word at `pc` changes the three cells a step fetches and no other. -/
theorem State.keeps_placeAndRun (s : State) (w : Fetched) : Keeps s (s.placeAndRun w) [] [s.pc, s.pc + 1, s.pc + 2] where
  reg _ _ := rfl
  memRead x hx := by
    simp only [List.mem_cons, List.not_mem_nil, or_false, not_or] at hx
    obtain ⟨h0, h1, h2⟩ := hx
    have hfar : ¬ (x - s.pc).toNat < w.toList.length := by
      have hlen : w.toList.length = 3 := rfl
      rw [hlen]
      bv_omega
    exact (Memory.read_writeBytes s.mem s.pc x w.toList (by simp [Fetched.toList])).trans (if_neg hfar)

/-- Settles O56: the fetch after placing is the placed word, which decodes to the instruction. -/
theorem placedWordIsTheNextInstruction : Obligations.PlacedWordIsTheNextInstruction := by
  intro s nbits w i h
  refine ⟨?_, s.keeps_placeAndRun _, rfl, rfl, rfl, rfl⟩
  refine stepRunsTheDecodedInstruction _ i rfl ?_
  have hfetch : (s.withFetchWord nbits w).fetch = wordBytes nbits w := s.fetch_placeAndRun _
  exact (congrArg decode hfetch).trans (decode_of_decodeTableWord h)

end Sys2Proof.Machine
end
